-- ==== Sys2Proof/Word.lean ====
section
/-! DEFINITION. The widths of the rust8 CHIP-8 core (spec/00_scope.md R9, R11; spec/30_encoding.md R82): every value
the spec gives a width is a bit vector of that width. -/

namespace Sys2Proof

/-- A 4-bit field: a register index X or Y, a sprite height N, a key index (R82, R270). -/
abbrev Nibble := BitVec 4

/-- A general register, a timer, a memory cell, an immediate NN (R21, R30, R50, R82). -/
abbrev Byte := BitVec 8

/-- A 12-bit address operand NNN (R82). -/
abbrev Addr := BitVec 12

/-- An instruction word, the program counter, the index register, a return address (R24, R26, R27, R80). -/
abbrev Word := BitVec 16

end Sys2Proof
end

