-- ==== Sys2Proof/Config.lean ====
section
/-! DEFINITION. What the spec leaves to the implementation: the six named parameters of spec/00_scope.md R10 as one
record of plain data (the machine holds one such record, so a claim over every state is a claim over every parameter
value; notes/assumptions/1.md), and the free random byte of CXNN (spec/42_alu.md R161; notes/assumptions/3.md). -/

namespace Sys2Proof

/-- `FLAG_ORDER` (R10, R141; D9): the order of the VF write and the destination write. -/
inductive FlagOrder where
  | flagThenDest
  | destThenFlag
  deriving DecidableEq, Repr

/-- `INDEX_ADVANCE` (R10, R184, R185; D11): whether FX55 and FX65 leave I or add x + 1 to it. -/
inductive IndexAdvance where
  | none
  | xPlus1
  deriving DecidableEq, Repr

/-- `KEY_INDEX_POLICY` (R10, R230; D12): what EX9E and EXA1 do with a register value of 16 or more. -/
inductive KeyIndexPolicy where
  | fault
  | mod16
  deriving DecidableEq, Repr

/-- The six named parameters of R10. -/
structure Params where
  /-- `FONT_BASE`: the address of glyph 0 (R32; D13). -/
  fontBase : Addr
  /-- `FONT_DATA`: 16 glyphs of 5 bytes (R33; D13). -/
  fontData : Vector Byte 80
  /-- `FLAG_ORDER`. -/
  flagOrder : FlagOrder
  /-- `INDEX_ADVANCE`. -/
  indexAdvance : IndexAdvance
  /-- `KEY_INDEX_POLICY`. -/
  keyIndexPolicy : KeyIndexPolicy
  /-- `STRICT_DECODE` (R86, R89; D8). -/
  strictDecode : Bool
  deriving DecidableEq, Repr

/-- DESIGN CHOICE (safe; notes/assumptions/3.md): the byte the host's random source gives for the n-th draw for which
the host names no byte. It has no value here: R161 says `rand8()` is "constrained by no law". -/
opaque Config.rand8 : Nat → Byte

end Sys2Proof
end

