-- ==== Sys2Proof/Syntax.lean ====
section
/-! DEFINITION. The 34 instructions of spec/30_encoding.md R96 and spec/opcode_table.json, one constructor per row, in
the table's order. A constructor carries every field of its row's format (R83), the ones its rule does not read
included: the `ign` bits of format F-sys, the N bits of 5XYn and 9XYn and the Y bits of 8XY6 and 8XYE, so that no bit
of an instruction word is dropped. -/

namespace Sys2Proof

/-- One constructor per row of the opcode table; the operand fields are those of R82. -/
inductive Instr where
  /-- 00E0 clear-display (R210); `ign` is bits 11:8 (R86). -/
  | cls (ign : Nibble)
  /-- 00EE return (R111); `ign` is bits 11:8 (R86). -/
  | ret (ign : Nibble)
  /-- 1NNN jump (R112). -/
  | jp (nnn : Addr)
  /-- 2NNN call (R113). -/
  | call (nnn : Addr)
  /-- 3XNN skip if Vx = NN (R114). -/
  | seImm (x : Nibble) (nn : Byte)
  /-- 4XNN skip if Vx ≠ NN (R115). -/
  | sneImm (x : Nibble) (nn : Byte)
  /-- 5XY0 skip if Vx = Vy (R116); `n` is bits 3:0 (R89). -/
  | seReg (x y n : Nibble)
  /-- 6XNN load immediate (R142). -/
  | ldImm (x : Nibble) (nn : Byte)
  /-- 7XNN add immediate (R143). -/
  | addImm (x : Nibble) (nn : Byte)
  /-- 8XY0 load register (R144). -/
  | ldReg (x y : Nibble)
  /-- 8XY1 bitwise or (R145). -/
  | or (x y : Nibble)
  /-- 8XY2 bitwise and (R146). -/
  | and (x y : Nibble)
  /-- 8XY3 bitwise exclusive or (R147). -/
  | xor (x y : Nibble)
  /-- 8XY4 add registers (R148). -/
  | addReg (x y : Nibble)
  /-- 8XY5 subtract (R149). -/
  | sub (x y : Nibble)
  /-- 8XY6 shift right (R150); `y` is not read. -/
  | shr (x y : Nibble)
  /-- 8XY7 reverse subtract (R151). -/
  | subn (x y : Nibble)
  /-- 8XYE shift left (R152); `y` is not read. -/
  | shl (x y : Nibble)
  /-- 9XY0 skip if Vx ≠ Vy (R117); `n` is bits 3:0 (R89). -/
  | sneReg (x y n : Nibble)
  /-- ANNN load index (R180). -/
  | ldI (nnn : Addr)
  /-- BNNN jump to V0 + NNN (R118). -/
  | jpV0 (nnn : Addr)
  /-- CXNN random byte (R161). -/
  | rnd (x : Nibble) (nn : Byte)
  /-- DXYN draw sprite (R211). -/
  | drw (x y n : Nibble)
  /-- EX9E skip if key pressed (R231). -/
  | skp (x : Nibble)
  /-- EXA1 skip if key not pressed (R232). -/
  | sknp (x : Nibble)
  /-- FX07 read the delay timer (R233). -/
  | ldVxDt (x : Nibble)
  /-- FX0A wait for a key (R235, R236). -/
  | ldVxK (x : Nibble)
  /-- FX15 set the delay timer (R238). -/
  | ldDtVx (x : Nibble)
  /-- FX18 set the sound timer (R239). -/
  | ldStVx (x : Nibble)
  /-- FX1E add to index (R181). -/
  | addI (x : Nibble)
  /-- FX29 index of a glyph (R182). -/
  | ldF (x : Nibble)
  /-- FX33 store BCD (R183). -/
  | ldB (x : Nibble)
  /-- FX55 dump registers (R184). -/
  | ldMemI (x : Nibble)
  /-- FX65 load registers (R185). -/
  | ldIMem (x : Nibble)
  deriving DecidableEq, Repr

/-- A row of the opcode table (R81): `w` selects the row iff `w &&& mask = pat`; `maskStrict` is the mask under
`STRICT_DECODE`. -/
structure TableRow where
  mnemonic : String
  pat : Word
  mask : Word
  maskStrict : Word
  deriving DecidableEq, Repr

/-- Why the decoder rejects a word (R91) or a byte list. -/
inductive DecodeError where
  /-- Family 0x0, bottom byte neither 0xE0 nor 0xEE. -/
  | undefinedSys
  /-- Family 0x8, bottom nibble 0x8 to 0xD or 0xF. -/
  | undefinedAlu
  /-- Family 0xE, bottom byte neither 0x9E nor 0xA1. -/
  | undefinedKey
  /-- Family 0xF, bottom byte of no handler. -/
  | undefinedMisc
  /-- Under `STRICT_DECODE`, a word of family 0x0, 0x5 or 0x9 whose undecoded bits are not 0 (R86, R89). -/
  | strictBits
  /-- Fewer than the two bytes an instruction takes (R80). -/
  | tooShort
  deriving DecidableEq, Repr

end Sys2Proof
end

