-- ==== Sys2Proof/WellFormed.lean ====
section
/-! DEFINITION. The checks on syntax and parameters that the types do not make. The field widths of R82 are in the
types of Instr; what is left is the undecoded bits under `STRICT_DECODE` (spec/30_encoding.md R86, R89), the place of
the font (spec/00_scope.md R10) and the length of a program (spec/60_exceptions.md R271). -/

namespace Sys2Proof

/-- An instruction the decoder can give under the setting `strict`: with `STRICT_DECODE` the bits that R86 and R89
leave undecoded by default must be 0, without it every instruction is well-formed. -/
def Instr.wellFormed (strict : Bool) : Instr → Bool
  | .cls ign => !strict || ign == 0
  | .ret ign => !strict || ign == 0
  | .seReg _ _ n => !strict || n == 0
  | .sneReg _ _ n => !strict || n == 0
  | .jp _ => true
  | .call _ => true
  | .seImm _ _ => true
  | .sneImm _ _ => true
  | .ldImm _ _ => true
  | .addImm _ _ => true
  | .ldReg _ _ => true
  | .or _ _ => true
  | .and _ _ => true
  | .xor _ _ => true
  | .addReg _ _ => true
  | .sub _ _ => true
  | .shr _ _ => true
  | .subn _ _ => true
  | .shl _ _ => true
  | .ldI _ => true
  | .jpV0 _ => true
  | .rnd _ _ => true
  | .drw _ _ _ => true
  | .skp _ => true
  | .sknp _ => true
  | .ldVxDt _ => true
  | .ldVxK _ => true
  | .ldDtVx _ => true
  | .ldStVx _ => true
  | .addI _ => true
  | .ldF _ => true
  | .ldB _ => true
  | .ldMemI _ => true
  | .ldIMem _ => true

/-- R10: `FONT_BASE + 80 <= 0x200`, the font lies in the reserved area. -/
def Params.wellFormed (p : Params) : Bool :=
  decide (p.fontBase.toNat + 80 ≤ 0x200)

/-- R271: a program of at most 4096 - 0x200 = 3584 bytes. -/
def romWellFormed (rom : List Byte) : Bool :=
  decide (rom.length ≤ 3584)

end Sys2Proof
end

