-- ==== Sys2Proof/Decode.lean ====
section
/-! DEFINITION. The decoder of spec/30_encoding.md R85 to R91, total on every word and every byte list, and the encoder
written from the formats of R83 and the codes of R85 to R88. The opcode values are the conventional CHIP-8 ones that
the spec itself supplies from general knowledge (spec/93_implementation_defined.md G1; notes/assumptions/9.md). -/

namespace Sys2Proof

/-! ## The decode fields (R82) -/

/-- The family, the "top nibble". -/
def opField (w : Word) : Nibble := w.extractLsb' 12 4

/-- `register_x()`. -/
def xField (w : Word) : Nibble := w.extractLsb' 8 4

/-- `register_y()`. -/
def yField (w : Word) : Nibble := w.extractLsb' 4 4

/-- `nibble_field()`. -/
def nField (w : Word) : Nibble := w.extractLsb' 0 4

/-- `immediate_byte()`. -/
def nnField (w : Word) : Byte := w.extractLsb' 0 8

/-- `address_field()`. -/
def nnnField (w : Word) : Addr := w.extractLsb' 0 12

/-! ## The decoder (R85 to R91) -/

/-- Under `STRICT_DECODE` the bits that are otherwise not decoded must be 0 (R86, R89). -/
def checkStrict (strict : Bool) (undecoded : Nibble) (i : Instr) : Except DecodeError Instr :=
  if strict && undecoded != 0 then .error .strictBits else .ok i

/-- Family 0x0 dispatches on the bottom byte (R86). -/
def decodeSys (strict : Bool) (w : Word) : Except DecodeError Instr :=
  if nnField w = 0xE0 then checkStrict strict (xField w) (.cls (xField w))
  else if nnField w = 0xEE then checkStrict strict (xField w) (.ret (xField w))
  else .error .undefinedSys

/-- Family 0x8 dispatches on the bottom nibble (R87). -/
def decodeAlu (w : Word) : Except DecodeError Instr :=
  if nField w = 0x0 then .ok (.ldReg (xField w) (yField w))
  else if nField w = 0x1 then .ok (.or (xField w) (yField w))
  else if nField w = 0x2 then .ok (.and (xField w) (yField w))
  else if nField w = 0x3 then .ok (.xor (xField w) (yField w))
  else if nField w = 0x4 then .ok (.addReg (xField w) (yField w))
  else if nField w = 0x5 then .ok (.sub (xField w) (yField w))
  else if nField w = 0x6 then .ok (.shr (xField w) (yField w))
  else if nField w = 0x7 then .ok (.subn (xField w) (yField w))
  else if nField w = 0xE then .ok (.shl (xField w) (yField w))
  else .error .undefinedAlu

/-- Family 0xE dispatches on the bottom byte (R88). -/
def decodeKey (w : Word) : Except DecodeError Instr :=
  if nnField w = 0x9E then .ok (.skp (xField w))
  else if nnField w = 0xA1 then .ok (.sknp (xField w))
  else .error .undefinedKey

/-- Family 0xF dispatches on the bottom byte (R88). -/
def decodeMisc (w : Word) : Except DecodeError Instr :=
  if nnField w = 0x07 then .ok (.ldVxDt (xField w))
  else if nnField w = 0x0A then .ok (.ldVxK (xField w))
  else if nnField w = 0x15 then .ok (.ldDtVx (xField w))
  else if nnField w = 0x18 then .ok (.ldStVx (xField w))
  else if nnField w = 0x1E then .ok (.addI (xField w))
  else if nnField w = 0x29 then .ok (.ldF (xField w))
  else if nnField w = 0x33 then .ok (.ldB (xField w))
  else if nnField w = 0x55 then .ok (.ldMemI (xField w))
  else if nnField w = 0x65 then .ok (.ldIMem (xField w))
  else .error .undefinedMisc

/-- The decoder: the top nibble selects the family (R85), four families dispatch again (R86 to R88). -/
def decodeWord (strict : Bool) (w : Word) : Except DecodeError Instr :=
  if opField w = 0x0 then decodeSys strict w
  else if opField w = 0x1 then .ok (.jp (nnnField w))
  else if opField w = 0x2 then .ok (.call (nnnField w))
  else if opField w = 0x3 then .ok (.seImm (xField w) (nnField w))
  else if opField w = 0x4 then .ok (.sneImm (xField w) (nnField w))
  else if opField w = 0x5 then checkStrict strict (nField w) (.seReg (xField w) (yField w) (nField w))
  else if opField w = 0x6 then .ok (.ldImm (xField w) (nnField w))
  else if opField w = 0x7 then .ok (.addImm (xField w) (nnField w))
  else if opField w = 0x8 then decodeAlu w
  else if opField w = 0x9 then checkStrict strict (nField w) (.sneReg (xField w) (yField w) (nField w))
  else if opField w = 0xA then .ok (.ldI (nnnField w))
  else if opField w = 0xB then .ok (.jpV0 (nnnField w))
  else if opField w = 0xC then .ok (.rnd (xField w) (nnField w))
  else if opField w = 0xD then .ok (.drw (xField w) (yField w) (nField w))
  else if opField w = 0xE then decodeKey w
  else decodeMisc w

/-- The two bytes of an instruction as a word: the byte at the lower address is bits 15:8 (R51). -/
def wordOfBytes (hi lo : Byte) : Word := hi ++ lo

/-- The bytes of a word in memory order (R51). -/
def bytesOfWord (w : Word) : List Byte := [w.extractLsb' 8 8, w.extractLsb' 0 8]

/-- Decode the instruction at the head of a byte list and give the rest: always exactly 2 bytes (R80). -/
def decodeBytes (strict : Bool) : List Byte → Except DecodeError (Instr × List Byte)
  | hi :: lo :: rest => (decodeWord strict (wordOfBytes hi lo)).map (fun i => (i, rest))
  | _ => .error .tooShort

/-- An instruction word from the opcode table's numbering of its bits: bit 0 is the word's least significant bit, and
every bit above `nbits` is 0. -/
def tableWord (nbits w : Nat) : Word := BitVec.ofNat 16 (w % 2 ^ nbits)

/-- What the decoder, at the default `STRICT_DECODE = false` (R10), reads from a word of the opcode table laid out in
memory order. -/
def decodeTableWord (nbits w : Nat) : Option Instr :=
  match decodeBytes false (bytesOfWord (tableWord nbits w)) with
  | .ok (i, _) => some i
  | .error _ => none

/-! ## The encoder (R83, R85 to R88) -/

/-- Format F-addr. -/
def fAddr (op : Nibble) (nnn : Addr) : Word := op ++ nnn

/-- Formats F-xnn, F-xsub and F-sys: a nibble and a byte after the family. -/
def fXnn (op x : Nibble) (nn : Byte) : Word := op ++ (x ++ nn)

/-- Format F-xyn. -/
def fXyn (op x y n : Nibble) : Word := op ++ (x ++ (y ++ n))

/-- The word of an instruction. -/
def encode : Instr → Word
  | .cls ign => fXnn 0x0 ign 0xE0
  | .ret ign => fXnn 0x0 ign 0xEE
  | .jp nnn => fAddr 0x1 nnn
  | .call nnn => fAddr 0x2 nnn
  | .seImm x nn => fXnn 0x3 x nn
  | .sneImm x nn => fXnn 0x4 x nn
  | .seReg x y n => fXyn 0x5 x y n
  | .ldImm x nn => fXnn 0x6 x nn
  | .addImm x nn => fXnn 0x7 x nn
  | .ldReg x y => fXyn 0x8 x y 0x0
  | .or x y => fXyn 0x8 x y 0x1
  | .and x y => fXyn 0x8 x y 0x2
  | .xor x y => fXyn 0x8 x y 0x3
  | .addReg x y => fXyn 0x8 x y 0x4
  | .sub x y => fXyn 0x8 x y 0x5
  | .shr x y => fXyn 0x8 x y 0x6
  | .subn x y => fXyn 0x8 x y 0x7
  | .shl x y => fXyn 0x8 x y 0xE
  | .sneReg x y n => fXyn 0x9 x y n
  | .ldI nnn => fAddr 0xA nnn
  | .jpV0 nnn => fAddr 0xB nnn
  | .rnd x nn => fXnn 0xC x nn
  | .drw x y n => fXyn 0xD x y n
  | .skp x => fXnn 0xE x 0x9E
  | .sknp x => fXnn 0xE x 0xA1
  | .ldVxDt x => fXnn 0xF x 0x07
  | .ldVxK x => fXnn 0xF x 0x0A
  | .ldDtVx x => fXnn 0xF x 0x15
  | .ldStVx x => fXnn 0xF x 0x18
  | .addI x => fXnn 0xF x 0x1E
  | .ldF x => fXnn 0xF x 0x29
  | .ldB x => fXnn 0xF x 0x33
  | .ldMemI x => fXnn 0xF x 0x55
  | .ldIMem x => fXnn 0xF x 0x65

/-- The bytes of an instruction in memory order. -/
def encodeBytes (i : Instr) : List Byte := bytesOfWord (encode i)

/-! ## The opcode table as data (R81, R96; spec/opcode_table.json) -/

/-- Rows 1 to 17 of the table. -/
def opcodeRowsLow : List TableRow := [
  ⟨"CLS", 0x00E0, 0xF0FF, 0xFFFF⟩,
  ⟨"RET", 0x00EE, 0xF0FF, 0xFFFF⟩,
  ⟨"JP", 0x1000, 0xF000, 0xF000⟩,
  ⟨"CALL", 0x2000, 0xF000, 0xF000⟩,
  ⟨"SE_imm", 0x3000, 0xF000, 0xF000⟩,
  ⟨"SNE_imm", 0x4000, 0xF000, 0xF000⟩,
  ⟨"SE_reg", 0x5000, 0xF000, 0xF00F⟩,
  ⟨"LD_imm", 0x6000, 0xF000, 0xF000⟩,
  ⟨"ADD_imm", 0x7000, 0xF000, 0xF000⟩,
  ⟨"LD_reg", 0x8000, 0xF00F, 0xF00F⟩,
  ⟨"OR", 0x8001, 0xF00F, 0xF00F⟩,
  ⟨"AND", 0x8002, 0xF00F, 0xF00F⟩,
  ⟨"XOR", 0x8003, 0xF00F, 0xF00F⟩,
  ⟨"ADD_reg", 0x8004, 0xF00F, 0xF00F⟩,
  ⟨"SUB", 0x8005, 0xF00F, 0xF00F⟩,
  ⟨"SHR", 0x8006, 0xF00F, 0xF00F⟩,
  ⟨"SUBN", 0x8007, 0xF00F, 0xF00F⟩]

/-- Rows 18 to 34 of the table. -/
def opcodeRowsHigh : List TableRow := [
  ⟨"SHL", 0x800E, 0xF00F, 0xF00F⟩,
  ⟨"SNE_reg", 0x9000, 0xF000, 0xF00F⟩,
  ⟨"LD_I", 0xA000, 0xF000, 0xF000⟩,
  ⟨"JP_V0", 0xB000, 0xF000, 0xF000⟩,
  ⟨"RND", 0xC000, 0xF000, 0xF000⟩,
  ⟨"DRW", 0xD000, 0xF000, 0xF000⟩,
  ⟨"SKP", 0xE09E, 0xF0FF, 0xF0FF⟩,
  ⟨"SKNP", 0xE0A1, 0xF0FF, 0xF0FF⟩,
  ⟨"LD_Vx_DT", 0xF007, 0xF0FF, 0xF0FF⟩,
  ⟨"LD_Vx_K", 0xF00A, 0xF0FF, 0xF0FF⟩,
  ⟨"LD_DT_Vx", 0xF015, 0xF0FF, 0xF0FF⟩,
  ⟨"LD_ST_Vx", 0xF018, 0xF0FF, 0xF0FF⟩,
  ⟨"ADD_I", 0xF01E, 0xF0FF, 0xF0FF⟩,
  ⟨"LD_F", 0xF029, 0xF0FF, 0xF0FF⟩,
  ⟨"LD_B", 0xF033, 0xF0FF, 0xF0FF⟩,
  ⟨"LD_MEM_I", 0xF055, 0xF0FF, 0xF0FF⟩,
  ⟨"LD_I_MEM", 0xF065, 0xF0FF, 0xF0FF⟩]

/-- The whole table, in R96's order. -/
def opcodeTable : List TableRow := opcodeRowsLow ++ opcodeRowsHigh

/-- R81: the words a row stands for. -/
def TableRow.selects (strict : Bool) (r : TableRow) (w : Word) : Bool :=
  w &&& (if strict then r.maskStrict else r.mask) == r.pat

/-- The table's mnemonic of an instruction. -/
def Instr.mnemonic : Instr → String
  | .cls _ => "CLS"
  | .ret _ => "RET"
  | .jp _ => "JP"
  | .call _ => "CALL"
  | .seImm _ _ => "SE_imm"
  | .sneImm _ _ => "SNE_imm"
  | .seReg _ _ _ => "SE_reg"
  | .ldImm _ _ => "LD_imm"
  | .addImm _ _ => "ADD_imm"
  | .ldReg _ _ => "LD_reg"
  | .or _ _ => "OR"
  | .and _ _ => "AND"
  | .xor _ _ => "XOR"
  | .addReg _ _ => "ADD_reg"
  | .sub _ _ => "SUB"
  | .shr _ _ => "SHR"
  | .subn _ _ => "SUBN"
  | .shl _ _ => "SHL"
  | .sneReg _ _ _ => "SNE_reg"
  | .ldI _ => "LD_I"
  | .jpV0 _ => "JP_V0"
  | .rnd _ _ => "RND"
  | .drw _ _ _ => "DRW"
  | .skp _ => "SKP"
  | .sknp _ => "SKNP"
  | .ldVxDt _ => "LD_Vx_DT"
  | .ldVxK _ => "LD_Vx_K"
  | .ldDtVx _ => "LD_DT_Vx"
  | .ldStVx _ => "LD_ST_Vx"
  | .addI _ => "ADD_I"
  | .ldF _ => "LD_F"
  | .ldB _ => "LD_B"
  | .ldMemI _ => "LD_MEM_I"
  | .ldIMem _ => "LD_I_MEM"

end Sys2Proof
end

