-- ==== Sys2Proof/Machine/Font.lean ====
section
/-! DEFINITION. The default parameter values of spec/00_scope.md R10: the conventional font of spec/10_state.md R33 and
the spec's choices D8, D9, D11, D12, D13 (notes/assumptions/1.md, 8.md, 10.md to 13.md). -/

namespace Sys2Proof.Machine

/-- PRESUMED by the spec (G3): glyphs 0 to 3, a row of 5 bytes each (R33). -/
def fontGlyphs0to3 : Vector Byte 20 := #v[
  0xF0, 0x90, 0x90, 0x90, 0xF0,
  0x20, 0x60, 0x20, 0x20, 0x70,
  0xF0, 0x10, 0xF0, 0x80, 0xF0,
  0xF0, 0x10, 0xF0, 0x10, 0xF0]

/-- PRESUMED by the spec (G3): glyphs 4 to 7, a row of 5 bytes each (R33). -/
def fontGlyphs4to7 : Vector Byte 20 := #v[
  0x90, 0x90, 0xF0, 0x10, 0x10,
  0xF0, 0x80, 0xF0, 0x10, 0xF0,
  0xF0, 0x80, 0xF0, 0x90, 0xF0,
  0xF0, 0x10, 0x20, 0x40, 0x40]

/-- PRESUMED by the spec (G3): glyphs 8 to B, a row of 5 bytes each (R33). -/
def fontGlyphs8toB : Vector Byte 20 := #v[
  0xF0, 0x90, 0xF0, 0x90, 0xF0,
  0xF0, 0x90, 0xF0, 0x10, 0xF0,
  0xF0, 0x90, 0xF0, 0x90, 0x90,
  0xE0, 0x90, 0xE0, 0x90, 0xE0]

/-- PRESUMED by the spec (G3): glyphs C to F, a row of 5 bytes each (R33). -/
def fontGlyphsCtoF : Vector Byte 20 := #v[
  0xF0, 0x80, 0x80, 0x80, 0xF0,
  0xE0, 0x90, 0x90, 0x90, 0xE0,
  0xF0, 0x80, 0xF0, 0x80, 0xF0,
  0xF0, 0x80, 0xF0, 0x80, 0x80]

/-- The default `FONT_DATA` (R33). -/
def defaultFontData : Vector Byte 80 :=
  fontGlyphs0to3 ++ fontGlyphs4to7 ++ fontGlyphs8toB ++ fontGlyphsCtoF

/-- The defaults of R10. -/
def defaultParams : Params where
  fontBase := 0x000
  fontData := defaultFontData
  flagOrder := .flagThenDest
  indexAdvance := .none
  keyIndexPolicy := .fault
  strictDecode := false

end Sys2Proof.Machine
end

