-- ==== Sys2Proof/Machine/State.lean ====
section
/-! DEFINITION. The machine's state as plain data: every component of spec/10_state.md R20, the parameters of
spec/00_scope.md R10 and the two fields of the free random byte; the fault causes and the fault record of
spec/60_exceptions.md R261, R263; the state after reset (R42, spec/70_reset_and_hazards.md R300). -/

namespace Sys2Proof.Machine

/-- The pairs (kind, subcause) of R261, closed. -/
inductive FaultCause where
  /-- DecodeFault(undefined): a word R91 names. -/
  | decodeUndefined
  /-- StackFault(overflow): CALL with sp = 16. -/
  | stackOverflow
  /-- StackFault(underflow): RET with sp = 0. -/
  | stackUnderflow
  /-- MemoryFault(fetch): a fetch with pc + 1 > 0xFFF. -/
  | memFetch
  /-- MemoryFault(read): DXYN, FX65 reading past 0xFFF. -/
  | memRead
  /-- MemoryFault(write): FX33, FX55 writing past 0xFFF. -/
  | memWrite
  /-- MemoryFault(key): EX9E, EXA1 with Vx ≥ 16 under `KEY_INDEX_POLICY = fault`. -/
  | memKey
  deriving DecidableEq, Repr

/-- The fault record of R263; `opcode` is none for MemoryFault(fetch). -/
structure FaultRecord where
  cause : FaultCause
  pc : Word
  opcode : Option Word
  deriving DecidableEq, Repr

/-- The engine state (R39). -/
inductive EngineState where
  | running
  | blocked (x : Nibble)
  | fault (r : FaultRecord)
  deriving DecidableEq, Repr

/-- Memory as the cells that differ from the reset contents, addresses strictly rising (Memory.wf says so;
notes/assumptions/5.md). -/
abbrev Memory := List Host.Cell

/-- The 64 × 32 pixel grid (R34): 32 rows, top first, of 64 pixels, leftmost first; true is "set". -/
abbrev Display := Vector (Vector Bool 64) 32

/-- The complete machine state (R20); `params`, `rand8In` and `draws` are the model's own fields. -/
structure State where
  /-- The parameters of R10, which nothing writes (notes/assumptions/1.md). -/
  params : Params
  /-- V0..VF (R21). -/
  v : Vector Byte 16
  /-- The program counter (R24). -/
  pc : Word
  /-- The index register I (R26). -/
  index : Word
  /-- The call stack (R27). -/
  stack : Vector Word 16
  /-- The number of stack entries in use, 0..16 (R27). -/
  sp : Fin 17
  /-- The delay timer DT (R30). -/
  dt : Byte
  /-- The sound timer ST (R31). -/
  st : Byte
  /-- The 4096 bytes of memory (R50). -/
  mem : Memory
  /-- The display buffer (R34). -/
  disp : Display
  /-- The display-changed flag (R35). -/
  changed : Bool
  /-- The key-down flags (R36). -/
  key : Vector Bool 16
  /-- The most recently fetched word (R37). -/
  currentOpcode : Word
  /-- The engine state (R39). -/
  estate : EngineState
  /-- The byte the host presents on the input `rand8` for the next draw, if it names one (R270;
  notes/assumptions/3.md). -/
  rand8In : Option Byte
  /-- The number of draws so far, which picks the free byte when the host names none (notes/assumptions/3.md). -/
  draws : Nat
  deriving DecidableEq, Repr

/-- Reasons for which a step stops outside the machine's own fault state. There are none: every fault of the spec is an
entry into the engine state Fault(r), a next state (R262; notes/assumptions/2.md), so no constructor is needed and no
step can end in one. Safe: nothing raises it. -/
inductive Fault where
  deriving DecidableEq, Repr

/-- Reasons for which the model gives no meaning. -/
inductive Refusal where
  /-- An instruction that has no meaning yet, by its mnemonic. No arm raises it. Safe: the model stops. -/
  | notModelled (mnemonic : String)
  /-- The host's `load` on a state that is not the one reset has just produced: "outside the model (refused)" (R271,
  D24). Raised by the transaction `load` only. Safe: the model stops. -/
  | loadAfterStart
  deriving DecidableEq, Repr

/-- The state reset produces for given parameters and a given count of past draws (R42, R300). -/
def State.resetWith (p : Params) (draws : Nat) : State where
  params := p
  v := Vector.replicate 16 0
  pc := 0x200
  index := 0
  stack := Vector.replicate 16 0
  sp := 0
  dt := 0
  st := 0
  mem := []
  disp := Vector.replicate 32 (Vector.replicate 64 false)
  changed := false
  key := Vector.replicate 16 false
  currentOpcode := 0x0000
  estate := .running
  rand8In := none
  draws := draws

/-- The machine right after reset, at the default parameters (R10, R42, R300). -/
def State.reset : State := State.resetWith defaultParams 0

end Sys2Proof.Machine
end

