-- ==== Sys2Proof/Machine/Memory.lean ====
section
/-! DEFINITION. Memory as a canonical list of cells over the reset contents (spec/20_memory.md R50, R55; spec/10_state.md
R32, R42; notes/assumptions/5.md). -/

namespace Sys2Proof.Machine

/-- What an address that memory does not list reads as: the reset contents, `FONT_DATA` at
`FONT_BASE .. FONT_BASE+79` and 0 elsewhere (R42, R55). -/
def resetByte (p : Params) (a : Nat) : Byte :=
  if h : p.fontBase.toNat ≤ a ∧ a - p.fontBase.toNat < 80 then p.fontData[a - p.fontBase.toNat] else 0

/-- The byte at an address. -/
def Memory.read (d : Nat → Byte) : Memory → Nat → Byte
  | [], a => d a
  | (k, b) :: m, a => if k = a then b else Memory.read d m a

/-- Write one byte and keep the canonical form: a cell that would equal the reset contents is not listed. -/
def Memory.write (d : Nat → Byte) : Memory → Nat → Byte → Memory
  | [], a, b => if b = d a then [] else [(a, b)]
  | (k, c) :: m, a, b =>
    if a < k then (if b = d a then (k, c) :: m else (a, b) :: (k, c) :: m)
    else if a = k then (if b = d a then m else (a, b) :: m)
    else (k, c) :: Memory.write d m a b

/-- The canonical form from a lower bound on: addresses strictly rising and inside 0x000..0xFFF, no entry equal to
the reset contents. -/
def Memory.wfFrom (d : Nat → Byte) : Nat → Memory → Bool
  | _, [] => true
  | lo, (k, b) :: m => decide (lo ≤ k) && decide (k < 4096) && decide (b ≠ d k) && Memory.wfFrom d (k + 1) m

/-- The canonical form of a whole memory. -/
def Memory.wf (d : Nat → Byte) (m : Memory) : Bool := Memory.wfFrom d 0 m

/-- The address decoder (R54): the `n` addresses from `a` on, computed without wrap, are all at most 0xFFF. An access
to no byte at all is never out of range (R211, N = 0). -/
def inRange (a n : Nat) : Bool := decide (n = 0) || decide (a + n ≤ 4096)

end Sys2Proof.Machine
end

