-- ==== Sys2Proof/Machine/Ops.lean ====
section
/-! DEFINITION. The named operations over registers, memory, stack and display, taking a fault (the one shared
operation of spec/60_exceptions.md R262) and fetching (spec/20_memory.md R52). There is no return from a fault (R266):
only reset leaves it. -/

namespace Sys2Proof.Machine

/-! ## General registers (R12, R21) -/

/-- `V[x]`. -/
def State.reg (s : State) (x : Nibble) : Byte := s.v[x.toNat]'x.isLt

/-- `V[x] <- b`; no register is hardwired (R21). -/
def State.setReg (s : State) (x : Nibble) (b : Byte) : State := { s with v := s.v.set x.toNat b x.isLt }

/-- V[k], V[k+1], ... take the bytes of a list (R185). -/
def State.setRegsFrom (s : State) (k : Nat) : List Byte → State
  | [] => s
  | b :: bs => (s.setReg (BitVec.ofNat 4 k) b).setRegsFrom (k + 1) bs

/-- V0..Vx in order (R184). -/
def State.regsUpTo (s : State) (x : Nibble) : List Byte :=
  (List.range (x.toNat + 1)).map (fun k => s.reg (BitVec.ofNat 4 k))

/-! ## Program counter (R24, R25, R110) -/

/-- `pc <- target`. -/
def State.setPc (s : State) (target : Word) : State := { s with pc := target }

/-- `pc <- pc + 2`, the end of every instruction that transfers no control. -/
def State.advance (s : State) : State := s.setPc (s.pc + 2)

/-- The end of a skip: `pc + 4` if the condition holds, else `pc + 2`. -/
def State.skipIf (s : State) (c : Bool) : State := s.setPc (s.pc + if c then 4 else 2)

/-! ## Index register (R26) -/

/-- `I <- w`. -/
def State.setIndex (s : State) (w : Word) : State := { s with index := w }

/-- The index advance of FX55 and FX65 over `n` bytes (R184, R185; `INDEX_ADVANCE`). -/
def State.advanceIndex (s : State) (n : Nat) : State :=
  match s.params.indexAdvance with
  | .none => s
  | .xPlus1 => s.setIndex (s.index + BitVec.ofNat 16 n)

/-! ## Memory (R12, R54, R56) -/

/-- The byte at an address of memory. -/
def State.byteAt (s : State) (a : Nat) : Byte := Memory.read (resetByte s.params) s.mem a

/-- One byte stored. -/
def State.putByte (s : State) (a : Nat) (b : Byte) : State :=
  { s with mem := Memory.write (resetByte s.params) s.mem a b }

/-- Bytes stored at consecutive addresses. -/
def State.putBytes (s : State) (a : Nat) : List Byte → State
  | [] => s
  | b :: bs => (s.putByte a b).putBytes (a + 1) bs

/-- `n` reads through the address decoder; none if one of them is out of range (R54). -/
def State.readBytes (s : State) (a n : Nat) : Option (List Byte) :=
  if inRange a n then some ((List.range n).map (fun k => s.byteAt (a + k))) else none

/-- Writes through the address decoder, all checked before the first (R54); none if one is out of range. -/
def State.writeBytes (s : State) (a : Nat) (bs : List Byte) : Option State :=
  if inRange a bs.length then some (s.putBytes a bs) else none

/-! ## Call stack (R27, R28) -/

/-- `push(v)`; none when the stack is full. -/
def State.push (s : State) (ret : Word) : Option State :=
  if h : s.sp.val < 16 then
    some { s with stack := s.stack.set s.sp.val ret h, sp := ⟨s.sp.val + 1, by omega⟩ }
  else none

/-- `pop()`; none when the stack is empty. The popped entry keeps its value (R28; notes/assumptions/6.md). -/
def State.pop (s : State) : Option (Word × State) :=
  if h : 0 < s.sp.val then
    some (s.stack[s.sp.val - 1]'(by omega), { s with sp := ⟨s.sp.val - 1, by omega⟩ })
  else none

/-! ## Display (R34) -/

/-- The pixel of column `x`, row `y`. -/
def Display.pixel (d : Display) (x : Fin 64) (y : Fin 32) : Bool := (d[y.val])[x.val]

/-- One pixel inverted. -/
def Display.flip (d : Display) (x : Fin 64) (y : Fin 32) : Display :=
  d.set y.val ((d[y.val]).set x.val (!(d[y.val])[x.val]))

/-- A display with no pixel set. -/
def Display.clear : Display := Vector.replicate 32 (Vector.replicate 64 false)

/-! ## Timers and the engine state (R30, R31, R39) -/

/-- `DT <- b`. -/
def State.setDt (s : State) (b : Byte) : State := { s with dt := b }

/-- `ST <- b`. -/
def State.setSt (s : State) (b : Byte) : State := { s with st := b }

/-- `estate <- Blocked(x)` (R235). -/
def State.block (s : State) (x : Nibble) : State := { s with estate := .blocked x }

/-! ## Keys (R36) -/

/-- `key[k]`. -/
def State.keyDown (s : State) (k : Nibble) : Bool := s.key[k.toNat]'k.isLt

/-- `key[k] <- b`, by the host only. -/
def State.setKey (s : State) (k : Nibble) (b : Bool) : State := { s with key := s.key.set k.toNat b k.isLt }

/-! ## The random byte (R161, R270; notes/assumptions/3.md) -/

/-- `rand8()`: the byte the host presents, or else a free byte. -/
def State.drawByte (s : State) : Byte :=
  match s.rand8In with
  | some b => b
  | none => Config.rand8 s.draws

/-- The draw is used up. -/
def State.takeDraw (s : State) : State := { s with rand8In := none, draws := s.draws + 1 }

/-! ## Faults (R261 to R263) -/

/-- `kind` of R261 as its numeric code (the spec's labels, D6). -/
def FaultCause.kindCode : FaultCause → Nat
  | .decodeUndefined => 1
  | .stackOverflow => 2
  | .stackUnderflow => 2
  | .memFetch => 3
  | .memRead => 3
  | .memWrite => 3
  | .memKey => 3

/-- `subcause` of R261 as its numeric code (the spec's labels, D6). -/
def FaultCause.subcauseCode : FaultCause → Nat
  | .decodeUndefined => 0
  | .stackOverflow => 0
  | .stackUnderflow => 1
  | .memFetch => 0
  | .memRead => 1
  | .memWrite => 2
  | .memKey => 3

/-- Fault entry (R262, R263): the engine state becomes Fault(r), and nothing else changes. -/
def State.takeFault (s : State) (c : FaultCause) (opcode : Option Word) : State :=
  { s with estate := .fault ⟨c, s.pc, opcode⟩ }

/-- A fault of the fetched word: its record names `current_opcode` (R263). -/
def State.raise (s : State) (c : FaultCause) : State := s.takeFault c (some s.currentOpcode)

/-- The fault of the fetch itself: there is no fetched word (R263). -/
def State.raiseFetch (s : State) : State := s.takeFault .memFetch none

/-! ## Fetch (R52, R90) -/

/-- `Fetch(pc)`: two bytes, big-endian, at any address; none when pc + 1 > 0xFFF. -/
def State.fetch (s : State) : Option Word :=
  if s.pc.toNat + 1 ≤ 0xFFF then some (wordOfBytes (s.byteAt s.pc.toNat) (s.byteAt (s.pc.toNat + 1))) else none

/-- `current_opcode <- w` (R37). -/
def State.latch (s : State) (w : Word) : State := { s with currentOpcode := w }

/-! ## Steps that execute nothing (R237, R267) -/

/-- A step in Blocked(x) "executes nothing, changes no state" (R237). -/
def State.stepBlocked (s : State) : State := s

/-- A step in Fault(r) "executes nothing, changes no state" (R267). -/
def State.stepFaulted (s : State) : State := s

end Sys2Proof.Machine
end

