-- ==== Sys2Proof/Machine/Flags.lean ====
section
/-! DEFINITION. The results and flags of the flag-writing ALU instructions and their commit (spec/42_alu.md R140, R141,
R148 to R152, R156). -/

namespace Sys2Proof.Machine

/-- A flag as the register value 0 or 1 (R156). -/
def flagByte (f : Bool) : Byte := if f then 1 else 0

/-- 8XY4: the unbounded sum, its low 8 bits and the carry (R148). -/
def addResult (a b : Byte) : Byte × Bool := (BitVec.ofNat 8 (a.toNat + b.toNat), decide (a.toNat + b.toNat > 255))

/-- `a - b` mod 256 and the strict comparison a > b (R149, R151). -/
def subResult (a b : Byte) : Byte × Bool := (a - b, decide (a.toNat > b.toNat))

/-- Shift right by one and the old bit 0 (R150). -/
def shrResult (a : Byte) : Byte × Bool := (a >>> 1, a.getLsbD 0)

/-- Shift left by one and the old bit 7 (R152). -/
def shlResult (a : Byte) : Byte × Bool := (a <<< 1, a.getLsbD 7)

/-- `commit(r, f)` (R141): VF and Vx are written in the order `FLAG_ORDER` says. -/
def State.commit (s : State) (x : Nibble) (res : Byte × Bool) : State :=
  match s.params.flagOrder with
  | .flagThenDest => (s.setReg 0xF#4 (flagByte res.2)).setReg x res.1
  | .destThenFlag => (s.setReg x res.1).setReg 0xF#4 (flagByte res.2)

end Sys2Proof.Machine
end

