-- ==== Sys2Proof/Machine/Alu.lean ====
section
/-! DEFINITION. The register loads, the ALU group and the random byte (spec/42_alu.md R142 to R152, R161). Every
operand is read from the state before the instruction (R140). -/

namespace Sys2Proof.Machine

/-- 6XNN LD Vx, NN (R142). -/
def execLdImm (x : Nibble) (nn : Byte) (s : State) : Host.Outcome State Fault Refusal :=
  .next (s.setReg x nn).advance

/-- 7XNN ADD Vx, NN: wraps, no flag (R143). -/
def execAddImm (x : Nibble) (nn : Byte) (s : State) : Host.Outcome State Fault Refusal :=
  .next (s.setReg x (s.reg x + nn)).advance

/-- 8XY0 LD Vx, Vy (R144). -/
def execLdReg (x y : Nibble) (s : State) : Host.Outcome State Fault Refusal :=
  .next (s.setReg x (s.reg y)).advance

/-- 8XY1 OR Vx, Vy (R145). -/
def execOr (x y : Nibble) (s : State) : Host.Outcome State Fault Refusal :=
  .next (s.setReg x (s.reg x ||| s.reg y)).advance

/-- 8XY2 AND Vx, Vy (R146). -/
def execAnd (x y : Nibble) (s : State) : Host.Outcome State Fault Refusal :=
  .next (s.setReg x (s.reg x &&& s.reg y)).advance

/-- 8XY3 XOR Vx, Vy (R147). -/
def execXor (x y : Nibble) (s : State) : Host.Outcome State Fault Refusal :=
  .next (s.setReg x (s.reg x ^^^ s.reg y)).advance

/-- 8XY4 ADD Vx, Vy (R148). -/
def execAddReg (x y : Nibble) (s : State) : Host.Outcome State Fault Refusal :=
  .next (s.commit x (addResult (s.reg x) (s.reg y))).advance

/-- 8XY5 SUB Vx, Vy (R149). -/
def execSub (x y : Nibble) (s : State) : Host.Outcome State Fault Refusal :=
  .next (s.commit x (subResult (s.reg x) (s.reg y))).advance

/-- 8XY6 SHR Vx (R150); Y is not read. -/
def execShr (x : Nibble) (s : State) : Host.Outcome State Fault Refusal :=
  .next (s.commit x (shrResult (s.reg x))).advance

/-- 8XY7 SUBN Vx, Vy (R151). -/
def execSubn (x y : Nibble) (s : State) : Host.Outcome State Fault Refusal :=
  .next (s.commit x (subResult (s.reg y) (s.reg x))).advance

/-- 8XYE SHL Vx (R152); Y is not read. -/
def execShl (x : Nibble) (s : State) : Host.Outcome State Fault Refusal :=
  .next (s.commit x (shlResult (s.reg x))).advance

/-- CXNN RND Vx, NN (R161). -/
def execRnd (x : Nibble) (nn : Byte) (s : State) : Host.Outcome State Fault Refusal :=
  .next (s.takeDraw.setReg x (s.drawByte &&& nn)).advance

end Sys2Proof.Machine
end

