-- ==== Sys2Proof/Machine/Operands.lean ====
section
/-! DEFINITION. The operand forms: extensions of immediates (spec/30_encoding.md R84), the effective address
(spec/43_index_memory.md R186), the key index (spec/45_input_timers.md R230), the glyph address (R182), the jump target
of BNNN (spec/41_control_flow.md R118) and the wrapped pixel coordinates (spec/44_display.md R212). -/

namespace Sys2Proof.Machine

/-- `zext_16(NNN)` (R84). -/
def zextAddr (nnn : Addr) : Word := nnn.setWidth 16

/-- `zext_16(V[X])` (R181). -/
def zextByte (b : Byte) : Word := b.setWidth 16

/-- The base of the one data addressing mode: I zero-extended to an unbounded natural (R186). -/
def State.ea (s : State) : Nat := s.index.toNat

/-- `keyidx(v)` (R230): the index, or none where the policy rejects it. -/
def keyIdx (p : KeyIndexPolicy) (b : Byte) : Option Nibble :=
  if b.toNat < 16 then some (BitVec.ofNat 4 b.toNat)
  else match p with
    | .mod16 => some (BitVec.ofNat 4 (b.toNat % 16))
    | .fault => none

/-- `(FONT_BASE + 5 · V[X]) mod 65536` (R182). -/
def glyphAddress (fontBase : Addr) (b : Byte) : Word := BitVec.ofNat 16 (fontBase.toNat + 5 * b.toNat)

/-- `zext_16(V[0]) + zext_16(NNN)` (R118); not masked to 12 bits (D23). -/
def jumpIndexed (v0 : Byte) (nnn : Addr) : Word := zextByte v0 + zextAddr nnn

/-- The column of a sprite pixel: `(x0 + c) mod 64` (R212). -/
def wrapColumn (x0 : Byte) (c : Nat) : Fin 64 := Fin.ofNat 64 (x0.toNat + c)

/-- The row of a sprite pixel: `(y0 + r) mod 32` (R212). -/
def wrapRow (y0 : Byte) (r : Nat) : Fin 32 := Fin.ofNat 32 (y0.toNat + r)

/-- The hundreds, tens and ones digits of a byte (R183). -/
def bcdDigits (b : Byte) : List Byte :=
  [BitVec.ofNat 8 (b.toNat / 100), BitVec.ofNat 8 (b.toNat / 10 % 10), BitVec.ofNat 8 (b.toNat % 10)]

end Sys2Proof.Machine
end

