-- ==== Sys2Proof/Machine/Draw.lean ====
section
/-! DEFINITION. Clear-display and draw (spec/44_display.md R210 to R213). The draw is R211's double loop over sprite
rows and columns, on the display and the collision flag. -/

namespace Sys2Proof.Machine

/-- One column `c` of sprite row `r` (R211, inner body); bit 7 is the leftmost pixel (R213). -/
def drawBit (x0 y0 : Byte) (r : Nat) (row : Byte) (acc : Display × Bool) (c : Nat) : Display × Bool :=
  if row.getLsbD (7 - c) then
    (acc.1.flip (wrapColumn x0 c) (wrapRow y0 r), acc.2 || acc.1.pixel (wrapColumn x0 c) (wrapRow y0 r))
  else acc

/-- The 8 columns of one sprite row (R211, inner loop). -/
def drawRow (x0 y0 : Byte) (r : Nat) (row : Byte) (acc : Display × Bool) : Display × Bool :=
  (List.range 8).foldl (drawBit x0 y0 r row) acc

/-- The rows of the sprite from row `r` on (R211, outer loop). -/
def drawRows (x0 y0 : Byte) : Nat → List Byte → Display × Bool → Display × Bool
  | _, [], acc => acc
  | r, row :: rows, acc => drawRows x0 y0 (r + 1) rows (drawRow x0 y0 r row acc)

/-- The display and the changed flag after 00E0 or DXYN (R34, R35). -/
def State.show (s : State) (d : Display) : State := { s with disp := d, changed := true }

/-- 00E0 CLS (R210). -/
def execCls (s : State) : Host.Outcome State Fault Refusal :=
  .next (s.show Display.clear).advance

/-- DXYN DRW (R211): the coordinates are read before VF is written. -/
def execDrw (x y n : Nibble) (s : State) : Host.Outcome State Fault Refusal :=
  match s.readBytes s.ea n.toNat with
  | none => .next (s.raise .memRead)
  | some rows =>
    let out := drawRows (s.reg x) (s.reg y) 0 rows (s.disp, false)
    .next ((s.show out.1).setReg 0xF#4 (flagByte out.2)).advance

end Sys2Proof.Machine
end

