-- ==== Sys2Proof/Machine/IndexMemory.lean ====
section
/-! DEFINITION. The instructions that set I and those that move bytes through it (spec/43_index_memory.md R180 to
R185). -/

namespace Sys2Proof.Machine

/-- ANNN LD I, NNN (R180). -/
def execLdI (nnn : Addr) (s : State) : Host.Outcome State Fault Refusal :=
  .next (s.setIndex (zextAddr nnn)).advance

/-- FX1E ADD I, Vx: 16-bit wrap, no flag (R181). -/
def execAddI (x : Nibble) (s : State) : Host.Outcome State Fault Refusal :=
  .next (s.setIndex (s.index + zextByte (s.reg x))).advance

/-- FX29 LD F, Vx (R182). -/
def execLdF (x : Nibble) (s : State) : Host.Outcome State Fault Refusal :=
  .next (s.setIndex (glyphAddress s.params.fontBase (s.reg x))).advance

/-- FX33 LD B, Vx (R183). -/
def execLdB (x : Nibble) (s : State) : Host.Outcome State Fault Refusal :=
  match s.writeBytes s.ea (bcdDigits (s.reg x)) with
  | none => .next (s.raise .memWrite)
  | some t => .next t.advance

/-- FX55 LD [I], Vx (R184). -/
def execLdMemI (x : Nibble) (s : State) : Host.Outcome State Fault Refusal :=
  match s.writeBytes s.ea (s.regsUpTo x) with
  | none => .next (s.raise .memWrite)
  | some t => .next (t.advanceIndex (x.toNat + 1)).advance

/-- FX65 LD Vx, [I] (R185). -/
def execLdIMem (x : Nibble) (s : State) : Host.Outcome State Fault Refusal :=
  match s.readBytes s.ea (x.toNat + 1) with
  | none => .next (s.raise .memRead)
  | some bs => .next ((s.setRegsFrom 0 bs).advanceIndex (x.toNat + 1)).advance

end Sys2Proof.Machine
end

