-- ==== Sys2Proof/Machine/InputTimers.lean ====
section
/-! DEFINITION. The key skips, the key wait and the timer reads and writes (spec/45_input_timers.md R230 to R239). -/

namespace Sys2Proof.Machine

/-- EX9E SKP Vx (R231). -/
def execSkp (x : Nibble) (s : State) : Host.Outcome State Fault Refusal :=
  match keyIdx s.params.keyIndexPolicy (s.reg x) with
  | none => .next (s.raise .memKey)
  | some k => .next (s.skipIf (s.keyDown k))

/-- EXA1 SKNP Vx (R232). -/
def execSknp (x : Nibble) (s : State) : Host.Outcome State Fault Refusal :=
  match keyIdx s.params.keyIndexPolicy (s.reg x) with
  | none => .next (s.raise .memKey)
  | some k => .next (s.skipIf (!s.keyDown k))

/-- FX07 LD Vx, DT (R233). -/
def execLdVxDt (x : Nibble) (s : State) : Host.Outcome State Fault Refusal :=
  .next (s.setReg x s.dt).advance

/-- FX0A LD Vx, K (R235): the engine blocks, pc stays; `press` completes it (R236). -/
def execLdVxK (x : Nibble) (s : State) : Host.Outcome State Fault Refusal :=
  .next (s.block x)

/-- FX15 LD DT, Vx (R238). -/
def execLdDtVx (x : Nibble) (s : State) : Host.Outcome State Fault Refusal :=
  .next (s.setDt (s.reg x)).advance

/-- FX18 LD ST, Vx (R239). -/
def execLdStVx (x : Nibble) (s : State) : Host.Outcome State Fault Refusal :=
  .next (s.setSt (s.reg x)).advance

end Sys2Proof.Machine
end

