-- ==== Sys2Proof/Machine/Step.lean ====
section
/-! DEFINITION. One `step` (spec/30_encoding.md R90) and what the host reads as its result (spec/60_exceptions.md
R272). -/

namespace Sys2Proof.Machine

/-- `step()` of R90: a step in Fault or Blocked executes nothing; a step in Running fetches, latches `current_opcode`,
decodes and executes one instruction, or takes the fetch or decode fault. -/
def step (s : State) : Host.Outcome State Fault Refusal :=
  match s.estate with
  | .fault _ => .next s.stepFaulted
  | .blocked _ => .next s.stepBlocked
  | .running =>
    match s.fetch with
    | none => .next s.raiseFetch
    | some w =>
      match decodeWord s.params.strictDecode w with
      | .error _ => .next ((s.latch w).raise .decodeUndefined)
      | .ok i => exec i (s.latch w)

/-- The return value of `step`: Running, Blocked or Fault(r) (R90, R272), read off the state after it. -/
def State.stepResult (s : State) : EngineState := s.estate

/-- The state with an instruction word, numbered as the opcode table numbers its bits, stored where `step` fetches next,
so that the very next step runs it: the engine is set Running, and a pc with no room for a word is moved to the program
start (notes/assumptions/22.md). -/
def State.withFetchWord (s : State) (nbits w : Nat) : State :=
  if s.pc.toNat + 1 ≤ 0xFFF then
    { s with estate := .running }.putBytes s.pc.toNat (bytesOfWord (tableWord nbits w))
  else
    { s with estate := .running, pc := 0x200 }.putBytes 0x200 (bytesOfWord (tableWord nbits w))

end Sys2Proof.Machine
end

