-- ==== Sys2Proof/Machine/Transactions.lean ====
section
/-! DEFINITION. The host-facing transactions of spec/60_exceptions.md R270 to R277 and R281, each atomic (R276), and a
run as a finite list of them (spec/70_reset_and_hazards.md R307). -/

namespace Sys2Proof.Machine

/-- The transactions of R270 with their inputs. A key index is 4 bits wide, so none is out of range (C3). -/
inductive Transaction where
  | reset
  | load (rom : List Byte)
  | step (rand8 : Byte)
  | displayRead
  | press (k : Nibble)
  | release (k : Nibble)
  | tick
  | soundRead
  deriving DecidableEq, Repr

/-- The outputs of R270. -/
inductive Response where
  | done
  | loadOk
  | loadRejected
  | stepped (result : EngineState)
  | display (grid : Display) (changed : Bool)
  | sound (st : Byte)
  deriving DecidableEq, Repr

/-- `reset` (R300): valid in every engine state. The parameters stay, and so does the count of past draws: the bytes
drawn after a reset are not those drawn before it (notes/assumptions/4.md). -/
def State.doReset (s : State) : State := State.resetWith s.params s.draws

/-- "The state reset has just produced" (R271; notes/assumptions/20.md). -/
def State.justReset (s : State) : Bool := decide (s = s.doReset)

/-- `display_read` leaves `changed = 0` (R273). -/
def State.doDisplayRead (s : State) : State := { s with changed := false }

/-- The key-down edge that completes FX0A (R236): Vx takes the key index, pc moves on, the engine runs. -/
def State.completeKeyWait (s : State) (x k : Nibble) : State :=
  { ((s.setKey k true).setReg x (k.setWidth 8)).advance with estate := .running }

/-- `press(k)` (R274). -/
def State.doPress (s : State) (k : Nibble) : State :=
  match s.estate with
  | .blocked x => if s.keyDown k then s.setKey k true else s.completeKeyWait x k
  | .running => s.setKey k true
  | .fault _ => s.setKey k true

/-- `release(k)` (R274). -/
def State.doRelease (s : State) (k : Nibble) : State := s.setKey k false

/-- A timer counts down and stops at 0 (R30, R275). -/
def countDown (b : Byte) : Byte := if b.toNat > 0 then b - 1 else b

/-- `tick` (R275): both timers, in every engine state (D16). -/
def State.doTick (s : State) : State := { s with dt := countDown s.dt, st := countDown s.st }

/-- The host's input `rand8` of a step (R270). -/
def State.withRand8 (s : State) (b : Byte) : State := { s with rand8In := some b }

/-- The input `rand8` belongs to one step only (R270). -/
def State.dropRand8 (s : State) : State := { s with rand8In := none }

/-- `step` with its input (R270, R272). -/
def doStep (b : Byte) (s : State) : Host.Outcome (State × Response) Fault Refusal :=
  match step (s.withRand8 b) with
  | .next t => .next (t.dropRand8, .stepped t.stepResult)
  | .fault r => .fault r
  | .refused r => .refused r

/-- `load(rom)` (R271): refused unless reset has just run; too long a program is rejected with no state change. -/
def doLoad (rom : List Byte) (s : State) : Host.Outcome (State × Response) Fault Refusal :=
  if s.justReset then
    if romWellFormed rom then .next (s.putBytes 0x200 rom, .loadOk) else .next (s, .loadRejected)
  else .refused .loadAfterStart

/-- One transaction: the state after it and its output. -/
def transact : Transaction → State → Host.Outcome (State × Response) Fault Refusal
  | .reset, s => .next (s.doReset, .done)
  | .load rom, s => doLoad rom s
  | .step b, s => doStep b s
  | .displayRead, s => .next (s.doDisplayRead, .display s.disp s.changed)
  | .press k, s => .next (s.doPress k, .done)
  | .release k, s => .next (s.doRelease k, .done)
  | .tick, s => .next (s.doTick, .done)
  | .soundRead, s => .next (s, .sound s.st)

/-- A finite sequence of transactions with its observation: the state after it and every output, in order (R307). -/
def runTransactions : List Transaction → State → Host.Outcome (State × List Response) Fault Refusal
  | [], s => .next (s, [])
  | τ :: τs, s =>
    match transact τ s with
    | .next (t, out) =>
      match runTransactions τs t with
      | .next (u, outs) => .next (u, out :: outs)
      | .fault r => .fault r
      | .refused r => .refused r
    | .fault r => .fault r
    | .refused r => .refused r

end Sys2Proof.Machine
end

