-- ==== Sys2Proof/Safety.lean ====
section
/-! DEFINITION. What claims speak about: failed and safe runs (spec/70_reset_and_hazards.md R307), the machine's
invariant, the fault table of spec/60_exceptions.md R261 as a function, the register tables of spec/10_state.md R22 and
R23, the pixels under a sprite (spec/44_display.md R211 to R213), and what it means that memory reads the same. -/

namespace Sys2Proof.Machine

/-! ## Runs (R267, R307) -/

/-- The engine is in the fault state: "a run that reaches it has failed" (R267). -/
def State.Failed (s : State) : Prop := ∃ r, s.estate = .fault r

/-- A run none of whose steps returned Fault(r) (R307). -/
def SafeRun (τs : List Transaction) (s : State) : Prop :=
  ∃ t outs, runTransactions τs s = .next (t, outs) ∧ ∀ r, Response.stepped (.fault r) ∉ outs

/-! ## The invariant -/

/-- What the engine state says about the rest (R39, R263): in Blocked(x) the pc still holds the FX0A that blocked and
`current_opcode` is that word; in Fault(r) the record names the pc and, unless the fetch itself faulted,
`current_opcode`. -/
def State.EstateOk (s : State) : Prop :=
  match s.estate with
  | .running => True
  | .blocked x => s.currentOpcode = encode (.ldVxK x) ∧ s.fetch = some (encode (.ldVxK x))
  | .fault r => r.pc = s.pc ∧ r.opcode = if r.cause = .memFetch then none else some s.currentOpcode

/-- The stack entries in use are addresses a CALL can have pushed: at most 0xFFE + 2 (R113). -/
def State.StackOk (s : State) : Prop :=
  ∀ (k : Nat) (h : k < 16), k < s.sp.val → (s.stack[k]'h).toNat ≤ 0x1000

/-- The invariant of every reachable state: the font lies in the reserved area (R10), memory is in canonical form, the
pc is at most 0xFF + 0xFFF (R25), the stack and the engine state are as the spec says. -/
structure State.Inv (s : State) : Prop where
  paramsOk : s.params.wellFormed = true
  memOk : Memory.wf (resetByte s.params) s.mem = true
  pcOk : s.pc.toNat ≤ 0x10FE
  stackOk : s.StackOk
  estateOk : s.EstateOk

/-! ## Faults (R261) -/

/-- The fault an instruction raises of its own, by the table of R261. -/
def ownFault (s : State) : Instr → Option FaultCause
  | .cls _ => none
  | .ret _ => if s.sp.val = 0 then some .stackUnderflow else none
  | .jp _ => none
  | .call _ => if s.sp.val = 16 then some .stackOverflow else none
  | .seImm _ _ => none
  | .sneImm _ _ => none
  | .seReg _ _ _ => none
  | .ldImm _ _ => none
  | .addImm _ _ => none
  | .ldReg _ _ => none
  | .or _ _ => none
  | .and _ _ => none
  | .xor _ _ => none
  | .addReg _ _ => none
  | .sub _ _ => none
  | .shr _ _ => none
  | .subn _ _ => none
  | .shl _ _ => none
  | .sneReg _ _ _ => none
  | .ldI _ => none
  | .jpV0 _ => none
  | .rnd _ _ => none
  | .drw _ _ n => if n.toNat > 0 ∧ s.index.toNat + n.toNat - 1 > 0xFFF then some .memRead else none
  | .skp x => if (s.reg x).toNat ≥ 16 ∧ s.params.keyIndexPolicy = .fault then some .memKey else none
  | .sknp x => if (s.reg x).toNat ≥ 16 ∧ s.params.keyIndexPolicy = .fault then some .memKey else none
  | .ldVxDt _ => none
  | .ldVxK _ => none
  | .ldDtVx _ => none
  | .ldStVx _ => none
  | .addI _ => none
  | .ldF _ => none
  | .ldB _ => if s.index.toNat + 2 > 0xFFF then some .memWrite else none
  | .ldMemI x => if s.index.toNat + x.toNat > 0xFFF then some .memWrite else none
  | .ldIMem x => if s.index.toNat + x.toNat > 0xFFF then some .memRead else none

/-- The fault of a step in Running, in the order of R265: fetch, decode, the instruction's own. -/
def State.tabledFault (s : State) : Option FaultCause :=
  match s.fetch with
  | none => some .memFetch
  | some w =>
    match decodeWord s.params.strictDecode w with
    | .error _ => some .decodeUndefined
    | .ok i => ownFault s i

/-! ## Registers (R22, R23) -/

/-- R23: the registers an instruction's step has as destination. FX0A writes Vx only on completion, in `press`. -/
def writesReg (j : Nibble) : Instr → Bool
  | .cls _ => false
  | .ret _ => false
  | .jp _ => false
  | .call _ => false
  | .seImm _ _ => false
  | .sneImm _ _ => false
  | .seReg _ _ _ => false
  | .ldImm x _ => j == x
  | .addImm x _ => j == x
  | .ldReg x _ => j == x
  | .or x _ => j == x
  | .and x _ => j == x
  | .xor x _ => j == x
  | .addReg x _ => j == x
  | .sub x _ => j == x
  | .shr x _ => j == x
  | .subn x _ => j == x
  | .shl x _ => j == x
  | .sneReg _ _ _ => false
  | .ldI _ => false
  | .jpV0 _ => false
  | .rnd x _ => j == x
  | .drw _ _ _ => false
  | .skp _ => false
  | .sknp _ => false
  | .ldVxDt x => j == x
  | .ldVxK _ => false
  | .ldDtVx _ => false
  | .ldStVx _ => false
  | .addI _ => false
  | .ldF _ => false
  | .ldB _ => false
  | .ldMemI _ => false
  | .ldIMem x => decide (j.toNat ≤ x.toNat)

/-- R23: the registers an instruction reads. -/
def readsReg (j : Nibble) : Instr → Bool
  | .cls _ => false
  | .ret _ => false
  | .jp _ => false
  | .call _ => false
  | .seImm x _ => j == x
  | .sneImm x _ => j == x
  | .seReg x y _ => j == x || j == y
  | .ldImm _ _ => false
  | .addImm x _ => j == x
  | .ldReg _ y => j == y
  | .or x y => j == x || j == y
  | .and x y => j == x || j == y
  | .xor x y => j == x || j == y
  | .addReg x y => j == x || j == y
  | .sub x y => j == x || j == y
  | .shr x _ => j == x
  | .subn x y => j == x || j == y
  | .shl x _ => j == x
  | .sneReg x y _ => j == x || j == y
  | .ldI _ => false
  | .jpV0 _ => j == 0
  | .rnd _ _ => false
  | .drw x y _ => j == x || j == y
  | .skp x => j == x
  | .sknp x => j == x
  | .ldVxDt _ => false
  | .ldVxK _ => false
  | .ldDtVx x => j == x
  | .ldStVx x => j == x
  | .addI x => j == x
  | .ldF x => j == x
  | .ldB x => j == x
  | .ldMemI x => decide (j.toNat ≤ x.toNat)
  | .ldIMem _ => false

/-- R22: the instructions that write VF as a side effect. -/
def writesFlag : Instr → Bool
  | .cls _ => false
  | .ret _ => false
  | .jp _ => false
  | .call _ => false
  | .seImm _ _ => false
  | .sneImm _ _ => false
  | .seReg _ _ _ => false
  | .ldImm _ _ => false
  | .addImm _ _ => false
  | .ldReg _ _ => false
  | .or _ _ => false
  | .and _ _ => false
  | .xor _ _ => false
  | .addReg _ _ => true
  | .sub _ _ => true
  | .shr _ _ => true
  | .subn _ _ => true
  | .shl _ _ => true
  | .sneReg _ _ _ => false
  | .ldI _ => false
  | .jpV0 _ => false
  | .rnd _ _ => false
  | .drw _ _ _ => true
  | .skp _ => false
  | .sknp _ => false
  | .ldVxDt _ => false
  | .ldVxK _ => false
  | .ldDtVx _ => false
  | .ldStVx _ => false
  | .addI _ => false
  | .ldF _ => false
  | .ldB _ => false
  | .ldMemI _ => false
  | .ldIMem _ => false

/-! ## Memory and display -/

/-- Every address reads as before. -/
def SameMemory (s t : State) : Prop := ∀ a, t.byteAt a = s.byteAt a

/-- Every address outside the `n` bytes from `base` on reads as before. -/
def SameMemoryOutside (base n : Nat) (s t : State) : Prop :=
  ∀ a, (a < base ∨ base + n ≤ a) → t.byteAt a = s.byteAt a

/-- The pixel (px, py) lies under a 1 bit of the n-row sprite at I drawn at (Vx, Vy): R211's condition, with the
wrapping of R212 and the bit order of R213. -/
def SpriteCovers (s : State) (x y n : Nibble) (px : Fin 64) (py : Fin 32) : Prop :=
  ∃ r c : Nat, r < n.toNat ∧ c < 8 ∧ px.val = ((s.reg x).toNat + c) % 64 ∧ py.val = ((s.reg y).toNat + r) % 32 ∧
    (s.byteAt (s.index.toNat + r)).getLsbD (7 - c) = true

end Sys2Proof.Machine
end

