-- ==== Sys2Proof/Certificates/Slice0/Obligations.lean ====
section
/-! DEFINITION. The statements for the provers, in the order of the spec's files: encoding, the step, control flow, the
ALU, index and memory, display, input and timers, the host's transactions, and rules of the whole machine. `exec` and
`step` answer a next state in every case, so a statement that names one is also the completion of its instructions. -/

open Sys2Proof Sys2Proof.Machine

/-! ## Encoding and decoding -/

/-- spec/30_encoding.md sections 1 and 3. Decoding the word of any well-formed instruction gives it back, with every
operand at every value, under both settings of `STRICT_DECODE` (the codes are the spec's general knowledge, G1,
notes/assumptions/9.md; the parameter is D8, notes/assumptions/10.md). -/
def Obligations.DecodeOfEncodeIsTheInstruction : Prop :=
  ∀ (strict : Bool) (i : Instr), i.wellFormed strict = true → decodeWord strict (encode i) = .ok i

/-- spec/30_encoding.md section 3. A word that decodes is the word of the instruction it decodes to, and that
instruction is well-formed: no bit of the word is dropped (G1, D8, notes/assumptions/9.md, 10.md). -/
def Obligations.EncodeOfDecodeIsTheWord : Prop :=
  ∀ (strict : Bool) (w : Word) (i : Instr), decodeWord strict w = .ok i → encode i = w ∧ i.wellFormed strict = true

/-- spec/30_encoding.md section 3 (R91's list; decisions D7 and D8, notes/assumptions/9.md, 10.md). The words the decoder
rejects are exactly those of the list, read with plain arithmetic on the word's number. -/
def Obligations.RejectedWordsAreTheListedOnes : Prop :=
  ∀ (strict : Bool) (w : Word), (∃ e, decodeWord strict w = .error e) ↔
    (w.toNat / 0x1000 = 0x0 ∧ w.toNat % 0x100 ∉ [0xE0, 0xEE]) ∨
    (strict = true ∧ w.toNat / 0x1000 = 0x0 ∧ w.toNat / 0x100 % 0x10 ≠ 0) ∨
    (w.toNat / 0x1000 = 0x8 ∧ w.toNat % 0x10 ∈ [0x8, 0x9, 0xA, 0xB, 0xC, 0xD, 0xF]) ∨
    (w.toNat / 0x1000 = 0xE ∧ w.toNat % 0x100 ∉ [0x9E, 0xA1]) ∨
    (w.toNat / 0x1000 = 0xF ∧
      w.toNat % 0x100 ∉ [0x07, 0x0A, 0x15, 0x18, 0x1E, 0x29, 0x33, 0x55, 0x65]) ∨
    (strict = true ∧ (w.toNat / 0x1000 = 0x5 ∨ w.toNat / 0x1000 = 0x9) ∧ w.toNat % 0x10 ≠ 0)

/-- spec/30_encoding.md sections 1, 3 and 6 (R81, R85 to R89, R96; codes G1, notes/assumptions/9.md; the masks under
`STRICT_DECODE` are D8, notes/assumptions/10.md). For every word, under both settings of `STRICT_DECODE`, the decoder
and the opcode table agree on which instruction it is, and no two rows of the table select one word. -/
def Obligations.DecoderAgreesWithOpcodeTable : Prop :=
  ∀ (strict : Bool) (w : Word),
    (∀ i, decodeWord strict w = .ok i →
      (opcodeTable.filter (fun r => r.selects strict w)).map TableRow.mnemonic = [i.mnemonic]) ∧
    (∀ e, decodeWord strict w = .error e → opcodeTable.filter (fun r => r.selects strict w) = [])

/-- spec/30_encoding.md sections 3 and 6 (R85 to R91, R96); spec/95_test_vectors.md part 2. Words written out from the
patterns, one or more of every format, decode to what they stand for (codes G1, notes/assumptions/9.md), at the default
`STRICT_DECODE = false`: 03E0 is CLS by D8 (notes/assumptions/10.md), and 0123 is undefined by D7. -/
def Obligations.SampleWordsDecode : Prop :=
  decodeWord false 0b0000001111100000 = .ok (.cls 3) ∧
  decodeWord false 0b0000000011101110 = .ok (.ret 0) ∧
  decodeWord false 0b0001001000110100 = .ok (.jp 0x234) ∧
  decodeWord false 0b0110101000101011 = .ok (.ldImm 0xA 0x2B) ∧
  decodeWord false 0b1000000100101110 = .ok (.shl 1 2) ∧
  decodeWord false 0b1101111100010101 = .ok (.drw 0xF 1 5) ∧
  decodeWord false 0b1110000110100001 = .ok (.sknp 1) ∧
  decodeWord false 0b1111010100001010 = .ok (.ldVxK 5) ∧
  decodeWord false 0b0000000100100011 = .error .undefinedSys

/-! ## The step -/

/-- spec/20_memory.md sections 1 and 2 (R51 to R53; D3, D4, notes/assumptions/15.md). A fetch needs pc + 1 ≤ 0xFFF, takes
any address, odd or even, and reads two bytes with the lower address in the high bits. -/
def Obligations.FetchReadsABigEndianWordAtAnyAddress : Prop :=
  ∀ s : State,
    (s.pc.toNat + 1 ≤ 0xFFF →
      ∃ w, s.fetch = some w ∧
        w.toNat = 256 * (s.byteAt s.pc.toNat).toNat + (s.byteAt (s.pc.toNat + 1)).toNat) ∧
    (0xFFF < s.pc.toNat + 1 → s.fetch = none)

/-- spec/30_encoding.md section 4 (R90). A step in Running whose fetched word decodes to `i` is `exec i` on the state in
which `current_opcode` is that word. -/
def Obligations.StepRunsTheDecodedInstruction : Prop :=
  ∀ (s : State) (w : Word) (i : Instr), s.estate = .running → s.fetch = some w →
    decodeWord s.params.strictDecode w = .ok i → step s = exec i { s with currentOpcode := w }

/-- spec/30_encoding.md section 4, spec/45_input_timers.md R237, spec/60_exceptions.md R267 (D15, D17,
notes/assumptions/2.md, 18.md). A step while Blocked or in Fault executes nothing and changes no state. -/
def Obligations.StepWhileBlockedOrFaultedChangesNothing : Prop :=
  ∀ s : State, s.estate ≠ .running → step s = .next s

/-- spec/60_exceptions.md section 1 (R261 to R265; D5, D6, D32, notes/assumptions/2.md, 14.md). Every step in Running
answers a next state. It faults exactly when R261's table says so, with the cause the priority of R265 selects, and then
nothing changes but `current_opcode`, if the fetch succeeded, and the engine state, which holds the record of R263;
otherwise the state after it is no fault state. -/
def Obligations.FaultsArePreciseAndExactlyAsTabled : Prop :=
  ∀ s : State, s.estate = .running → ∃ t, step s = .next t ∧
    (∀ c, s.tabledFault = some c →
      t = { s with currentOpcode := s.fetch.getD s.currentOpcode, estate := .fault ⟨c, s.pc, s.fetch⟩ }) ∧
    (s.tabledFault = none → (∀ r, t.estate ≠ .fault r) ∧ s.fetch = some t.currentOpcode)

/-! ## Control flow (spec/41_control_flow.md) -/

/-- R112. JP: the pc takes the 12-bit address; nothing else changes. -/
def Obligations.JumpSetsThePc : Prop :=
  ∀ (nnn : Addr) (s : State), ∃ t, exec (.jp nnn) s = .next t ∧ t.pc.toNat = nnn.toNat ∧
    SameMemory s t ∧ { t with pc := s.pc } = s

/-- R113. CALL: below 16 entries it pushes pc + 2 and jumps, leaving the entries below; with 16 it raises
StackFault(overflow) and nothing else changes. -/
def Obligations.CallPushesTheReturnAddress : Prop :=
  ∀ (nnn : Addr) (s : State),
    (∀ h : s.sp.val < 16, ∃ t, exec (.call nnn) s = .next t ∧ t.pc.toNat = nnn.toNat ∧
      t.stack[s.sp.val] = s.pc + 2 ∧ t.sp.val = s.sp.val + 1 ∧
      (∀ (k : Nat) (hk : k < 16), k ≠ s.sp.val → t.stack[k] = s.stack[k]) ∧
      SameMemory s t ∧ { t with pc := s.pc, stack := s.stack, sp := s.sp } = s) ∧
    (s.sp.val = 16 →
      exec (.call nnn) s = .next { s with estate := .fault ⟨.stackOverflow, s.pc, some s.currentOpcode⟩ })

/-- R111. RET: it pops the pc; with an empty stack it raises StackFault(underflow) and nothing else changes. The `ign`
bits do not matter. -/
def Obligations.ReturnPopsThePc : Prop :=
  ∀ (ign : Nibble) (s : State),
    (∀ h : 0 < s.sp.val, ∃ t, exec (.ret ign) s = .next t ∧ t.pc = s.stack[s.sp.val - 1]'(by omega) ∧
      t.sp.val + 1 = s.sp.val ∧ (∀ (k : Nat) (hk : k < 16), k < t.sp.val → t.stack[k] = s.stack[k]) ∧
      SameMemory s t ∧ { t with pc := s.pc, sp := s.sp, stack := s.stack } = s) ∧
    (s.sp.val = 0 →
      exec (.ret ign) s = .next { s with estate := .fault ⟨.stackUnderflow, s.pc, some s.currentOpcode⟩ })

/-- spec/41_control_flow.md section 3 (R121, derived there). At every depth, a CALL and, after any instructions that leave
the stack in use as it was, a RET give the pc after the CALL and the sp the CALL found. -/
def Obligations.CallThenReturnRestoresPcAndSp : Prop :=
  ∀ (nnn : Addr) (ign : Nibble) (s : State), s.sp.val < 16 → ∃ t, exec (.call nnn) s = .next t ∧
    ∀ u : State, u.sp = t.sp → (∀ (k : Nat) (hk : k < 16), k < t.sp.val → u.stack[k] = t.stack[k]) →
      ∃ r, exec (.ret ign) u = .next r ∧ r.pc = s.pc + 2 ∧ r.sp = s.sp

/-- R114, R115. SE Vx, NN and SNE Vx, NN: the pc moves by 4 if the register equals, or does not equal, the immediate,
else by 2; nothing else changes. -/
def Obligations.SkipsComparingAnImmediate : Prop :=
  ∀ (x : Nibble) (nn : Byte) (s : State),
    (∃ t, exec (.seImm x nn) s = .next t ∧ (s.reg x = nn → t.pc = s.pc + 4) ∧ (s.reg x ≠ nn → t.pc = s.pc + 2) ∧
      SameMemory s t ∧ { t with pc := s.pc } = s) ∧
    (∃ t, exec (.sneImm x nn) s = .next t ∧ (s.reg x ≠ nn → t.pc = s.pc + 4) ∧ (s.reg x = nn → t.pc = s.pc + 2) ∧
      SameMemory s t ∧ { t with pc := s.pc } = s)

/-- R116, R117. SE Vx, Vy and SNE Vx, Vy, whatever bits 3:0 hold; with `STRICT_DECODE` a word with those bits not 0 does
not decode. -/
def Obligations.SkipsComparingRegisters : Prop :=
  ∀ (x y n : Nibble) (s : State),
    (∃ t, exec (.seReg x y n) s = .next t ∧ (s.reg x = s.reg y → t.pc = s.pc + 4) ∧
      (s.reg x ≠ s.reg y → t.pc = s.pc + 2) ∧ SameMemory s t ∧ { t with pc := s.pc } = s) ∧
    (∃ t, exec (.sneReg x y n) s = .next t ∧ (s.reg x ≠ s.reg y → t.pc = s.pc + 4) ∧
      (s.reg x = s.reg y → t.pc = s.pc + 2) ∧ SameMemory s t ∧ { t with pc := s.pc } = s) ∧
    (n ≠ 0 → decodeWord true (encode (.seReg x y n)) = .error .strictBits ∧
      decodeWord true (encode (.sneReg x y n)) = .error .strictBits)

/-- spec/41_control_flow.md section 2 (R118; not masked to 12 bits, D23, notes/assumptions/15.md). JP V0, NNN: the pc
takes the exact sum. -/
def Obligations.IndexedJumpAddsV0 : Prop :=
  ∀ (nnn : Addr) (s : State), ∃ t, exec (.jpV0 nnn) s = .next t ∧
    t.pc.toNat = (s.reg 0).toNat + nnn.toNat ∧ SameMemory s t ∧ { t with pc := s.pc } = s

/-! ## ALU (spec/42_alu.md) -/

/-- R142. LD Vx, NN. -/
def Obligations.LoadImmediate : Prop :=
  ∀ (x : Nibble) (nn : Byte) (s : State), ∃ t, exec (.ldImm x nn) s = .next t ∧ t.reg x = nn ∧
    (∀ j, j ≠ x → t.reg j = s.reg j) ∧ t.pc = s.pc + 2 ∧ SameMemory s t ∧ { t with v := s.v, pc := s.pc } = s

/-- R143. ADD Vx, NN wraps mod 256 and sets no flag: VF changes only as the destination. -/
def Obligations.AddImmediateWrapsWithoutFlag : Prop :=
  ∀ (x : Nibble) (nn : Byte) (s : State), ∃ t, exec (.addImm x nn) s = .next t ∧
    (t.reg x).toNat = ((s.reg x).toNat + nn.toNat) % 256 ∧ (∀ j, j ≠ x → t.reg j = s.reg j) ∧
    t.pc = s.pc + 2 ∧ SameMemory s t ∧ { t with v := s.v, pc := s.pc } = s

/-- R144, R146, R147. LD, AND and XOR of two registers write Vx only. -/
def Obligations.CopyAndBitwiseWriteVxOnly : Prop :=
  ∀ (x y : Nibble) (s : State), ∀ p ∈ [(Instr.ldReg x y, s.reg y), (Instr.and x y, s.reg x &&& s.reg y),
      (Instr.xor x y, s.reg x ^^^ s.reg y)],
    ∃ t, exec p.1 s = .next t ∧ t.reg x = p.2 ∧ (∀ j, j ≠ x → t.reg j = s.reg j) ∧ t.pc = s.pc + 2 ∧
      SameMemory s t ∧ { t with v := s.v, pc := s.pc } = s

/-- spec/42_alu.md section 3 (R145, whose sentence that VF is not reset is derived there from R22). OR writes Vx only. -/
def Obligations.OrWritesVxOnly : Prop :=
  ∀ (x y : Nibble) (s : State), ∃ t, exec (.or x y) s = .next t ∧ t.reg x = s.reg x ||| s.reg y ∧
    (∀ j, j ≠ x → t.reg j = s.reg j) ∧ t.pc = s.pc + 2 ∧ SameMemory s t ∧ { t with v := s.v, pc := s.pc } = s

/-- R148. ADD Vx, Vy: the sum mod 256 and the carry; where X = 0xF the default order leaves VF as the sum (the source's own
statement for this row, R141). -/
def Obligations.AddRegistersSetsCarry : Prop :=
  ∀ (x y : Nibble) (s : State), ∃ t, exec (.addReg x y) s = .next t ∧
    (x ≠ 0xF#4 → (t.reg x).toNat = ((s.reg x).toNat + (s.reg y).toNat) % 256 ∧
      t.reg 0xF#4 = if 255 < (s.reg x).toNat + (s.reg y).toNat then 1 else 0) ∧
    (x = 0xF#4 → s.params.flagOrder = .flagThenDest →
      (t.reg 0xF#4).toNat = ((s.reg x).toNat + (s.reg y).toNat) % 256) ∧
    (∀ j, j ≠ x → j ≠ 0xF#4 → t.reg j = s.reg j) ∧ t.pc = s.pc + 2 ∧ SameMemory s t ∧
    { t with v := s.v, pc := s.pc } = s

/-- spec/42_alu.md section 1 (R141; the order is the parameter of D9, notes/assumptions/11.md). ADD VF, Vy under
`dest_then_flag`: VF ends as the carry. -/
def Obligations.AddIntoVfUnderDestThenFlagLeavesTheCarry : Prop :=
  ∀ (y : Nibble) (s : State), s.params.flagOrder = .destThenFlag → ∃ t, exec (.addReg 0xF#4 y) s = .next t ∧
    t.reg 0xF#4 = (if 255 < (s.reg 0xF#4).toNat + (s.reg y).toNat then 1 else 0) ∧
    (∀ j, j ≠ 0xF#4 → t.reg j = s.reg j) ∧ t.pc = s.pc + 2 ∧ SameMemory s t ∧ { t with v := s.v, pc := s.pc } = s

/-- spec/42_alu.md section 3 (R149, R151; the order where X = 0xF is the spec's choice D9, notes/assumptions/11.md). SUB and
SUBN: the difference mod 256 of exact integers, and the strict comparison as flag. -/
def Obligations.SubtractionsSetTheStrictFlag : Prop :=
  ∀ (x y : Nibble) (s : State), ∀ p ∈ [(Instr.sub x y, s.reg x, s.reg y), (Instr.subn x y, s.reg y, s.reg x)],
    ∃ t, exec p.1 s = .next t ∧
      (x ≠ 0xF#4 → ((t.reg x).toNat : Int) = ((p.2.1.toNat : Int) - p.2.2.toNat) % 256 ∧
        t.reg 0xF#4 = if p.2.1.toNat > p.2.2.toNat then 1 else 0) ∧
      (x = 0xF#4 → s.params.flagOrder = .flagThenDest →
        ((t.reg 0xF#4).toNat : Int) = ((p.2.1.toNat : Int) - p.2.2.toNat) % 256) ∧
      (x = 0xF#4 → s.params.flagOrder = .destThenFlag → t.reg 0xF#4 = if p.2.1.toNat > p.2.2.toNat then 1 else 0) ∧
      (∀ j, j ≠ x → j ≠ 0xF#4 → t.reg j = s.reg j) ∧ t.pc = s.pc + 2 ∧ SameMemory s t ∧
      { t with v := s.v, pc := s.pc } = s

/-- spec/42_alu.md section 3 (R150, R152; the order where X = 0xF is D9, the flag of SHL is the reading N9,
notes/assumptions/11.md, 25.md). SHR and SHL: half and double mod 256, and the bit shifted out as flag; Y does not
matter. -/
def Obligations.ShiftsSetTheBitShiftedOut : Prop :=
  ∀ (x y : Nibble) (s : State), ∀ p ∈ [(Instr.shr x y, (s.reg x).toNat / 2, (s.reg x).toNat % 2),
      (Instr.shl x y, (s.reg x).toNat * 2 % 256, (s.reg x).toNat / 128)],
    ∃ t, exec p.1 s = .next t ∧
      (x ≠ 0xF#4 → (t.reg x).toNat = p.2.1 ∧ (t.reg 0xF#4).toNat = p.2.2) ∧
      (x = 0xF#4 → s.params.flagOrder = .flagThenDest → (t.reg 0xF#4).toNat = p.2.1) ∧
      (x = 0xF#4 → s.params.flagOrder = .destThenFlag → (t.reg 0xF#4).toNat = p.2.2) ∧
      (∀ j, j ≠ x → j ≠ 0xF#4 → t.reg j = s.reg j) ∧ t.pc = s.pc + 2 ∧ SameMemory s t ∧
      { t with v := s.v, pc := s.pc } = s

/-- spec/42_alu.md section 5 (R161; the byte as a free input is D19, notes/assumptions/3.md). RND: for every byte the host
may present, Vx is that byte and NN; when the host names none, Vx still lies under the mask, and the byte is free. The
only other fields that change are the model's own two of the draw. The host presents the byte with the transaction
`step` (spec/60_exceptions.md section 3, R270, R272): where that step runs CXNN, Vx is the presented byte and NN, the
answer is Running, and the input is used up. -/
def Obligations.RandomByteIsAFreeInputUnderTheMask : Prop :=
  ∀ (x : Nibble) (nn : Byte) (s : State), ∃ t, exec (.rnd x nn) s = .next t ∧
    (∀ b, s.rand8In = some b → t.reg x = b &&& nn) ∧ t.reg x &&& nn = t.reg x ∧
    (∀ j, j ≠ x → t.reg j = s.reg j) ∧ t.pc = s.pc + 2 ∧ SameMemory s t ∧
    { t with v := s.v, pc := s.pc, rand8In := s.rand8In, draws := s.draws } = s ∧
    ∀ (b : Byte) (w : Word), s.estate = .running → s.fetch = some w →
      decodeWord s.params.strictDecode w = .ok (.rnd x nn) →
      ∃ u, transact (.step b) s = .next (u, .stepped .running) ∧ u.reg x = b &&& nn ∧
        (∀ j, j ≠ x → u.reg j = s.reg j) ∧ u.pc = s.pc + 2 ∧ u.currentOpcode = w ∧ u.rand8In = none ∧
        SameMemory s u ∧
        { u with v := s.v, pc := s.pc, currentOpcode := s.currentOpcode, rand8In := s.rand8In, draws := s.draws } = s

/-! ## Index and memory (spec/43_index_memory.md) -/

/-- R180. LD I, NNN. -/
def Obligations.LoadIndex : Prop :=
  ∀ (nnn : Addr) (s : State), ∃ t, exec (.ldI nnn) s = .next t ∧ t.index.toNat = nnn.toNat ∧
    t.pc = s.pc + 2 ∧ SameMemory s t ∧ { t with index := s.index, pc := s.pc } = s

/-- spec/43_index_memory.md section 2 (R181, whose sentence that VF is not written is derived there; R182, whose font base
is D13, notes/assumptions/8.md). ADD I, Vx and LD F, Vx set I mod 65536 and nothing else; no register changes. -/
def Obligations.IndexAdditionAndGlyphAddress : Prop :=
  ∀ (x : Nibble) (s : State), ∀ p ∈ [(Instr.addI x, s.index.toNat + (s.reg x).toNat),
      (Instr.ldF x, s.params.fontBase.toNat + 5 * (s.reg x).toNat)],
    ∃ t, exec p.1 s = .next t ∧ t.index.toNat = p.2 % 65536 ∧ t.pc = s.pc + 2 ∧ SameMemory s t ∧
      { t with index := s.index, pc := s.pc } = s

/-- R183. LD B, Vx: the three decimal digits at I, I+1, I+2 and no other byte, or MemoryFault(write) with nothing
written. The premise is the canonical form of memory, which every step keeps. -/
def Obligations.BcdStoresThreeDigits : Prop :=
  ∀ (x : Nibble) (s : State), Memory.wf (resetByte s.params) s.mem = true →
    (s.index.toNat + 2 ≤ 0xFFF → ∃ t, exec (.ldB x) s = .next t ∧
      (t.byteAt s.index.toNat).toNat = (s.reg x).toNat / 100 ∧
      (t.byteAt (s.index.toNat + 1)).toNat = (s.reg x).toNat / 10 % 10 ∧
      (t.byteAt (s.index.toNat + 2)).toNat = (s.reg x).toNat % 10 ∧
      SameMemoryOutside s.index.toNat 3 s t ∧ t.pc = s.pc + 2 ∧ { t with mem := s.mem, pc := s.pc } = s) ∧
    (0xFFF < s.index.toNat + 2 →
      exec (.ldB x) s = .next { s with estate := .fault ⟨.memWrite, s.pc, some s.currentOpcode⟩ })

/-- spec/43_index_memory.md section 2 (R184; whether I advances is the parameter of D11, notes/assumptions/12.md). LD [I],
Vx: V0..Vx at I..I+X and no other byte, or MemoryFault(write) with nothing written. -/
def Obligations.DumpStoresV0ToVx : Prop :=
  ∀ (x : Nibble) (s : State), Memory.wf (resetByte s.params) s.mem = true →
    (s.index.toNat + x.toNat ≤ 0xFFF → ∃ t, exec (.ldMemI x) s = .next t ∧
      (∀ j : Nibble, j.toNat ≤ x.toNat → t.byteAt (s.index.toNat + j.toNat) = s.reg j) ∧
      SameMemoryOutside s.index.toNat (x.toNat + 1) s t ∧
      (s.params.indexAdvance = .none → t.index = s.index) ∧
      (s.params.indexAdvance = .xPlus1 → t.index.toNat = s.index.toNat + x.toNat + 1) ∧
      t.pc = s.pc + 2 ∧ { t with mem := s.mem, index := s.index, pc := s.pc } = s) ∧
    (0xFFF < s.index.toNat + x.toNat →
      exec (.ldMemI x) s = .next { s with estate := .fault ⟨.memWrite, s.pc, some s.currentOpcode⟩ })

/-- spec/43_index_memory.md section 2 (R185; the parameter of D11, notes/assumptions/12.md). LD Vx, [I]: V0..Vx from
I..I+X, the other registers as they were, or MemoryFault(read) with no register written. -/
def Obligations.LoadFillsV0ToVx : Prop :=
  ∀ (x : Nibble) (s : State),
    (s.index.toNat + x.toNat ≤ 0xFFF → ∃ t, exec (.ldIMem x) s = .next t ∧
      (∀ j : Nibble, j.toNat ≤ x.toNat → t.reg j = s.byteAt (s.index.toNat + j.toNat)) ∧
      (∀ j : Nibble, x.toNat < j.toNat → t.reg j = s.reg j) ∧
      (s.params.indexAdvance = .none → t.index = s.index) ∧
      (s.params.indexAdvance = .xPlus1 → t.index.toNat = s.index.toNat + x.toNat + 1) ∧
      t.pc = s.pc + 2 ∧ SameMemory s t ∧ { t with v := s.v, index := s.index, pc := s.pc } = s) ∧
    (0xFFF < s.index.toNat + x.toNat →
      exec (.ldIMem x) s = .next { s with estate := .fault ⟨.memRead, s.pc, some s.currentOpcode⟩ })

/-- spec/43_index_memory.md section 2 (R185: "Inverse of dump"). A load after a dump, with I back at the dump's base and
memory as the dump left it, restores V0..Vx whatever the registers hold in between. -/
def Obligations.LoadUndoesDump : Prop :=
  ∀ (x : Nibble) (s : State), Memory.wf (resetByte s.params) s.mem = true → s.index.toNat + x.toNat ≤ 0xFFF →
    ∃ t, exec (.ldMemI x) s = .next t ∧ ∀ u : State, u.index = s.index → SameMemory t u →
      ∃ r, exec (.ldIMem x) u = .next r ∧ ∀ j : Nibble, j.toNat ≤ x.toNat → r.reg j = s.reg j

/-- spec/20_memory.md section 5 and spec/70_reset_and_hazards.md section 2 (R62, R304; D20, notes/assumptions/24.md). A word
whose bytes a dump stored is what the very next fetch of that address reads, wherever in the dump it lies. -/
def Obligations.FetchSeesAStoreAtOnce : Prop :=
  ∀ (x k : Nibble) (s : State), Memory.wf (resetByte s.params) s.mem = true → s.index.toNat + x.toNat ≤ 0xFFF →
    k.toNat < x.toNat → ∃ t, exec (.ldMemI x) s = .next t ∧
      ∀ u : State, SameMemory t u → u.pc.toNat = s.index.toNat + k.toNat →
        u.fetch = some (s.reg k ++ s.reg (k + 1))

/-! ## Display (spec/44_display.md) -/

/-- R210. CLS clears every pixel and sets `changed`, whatever the `ign` bits; VF is not written. -/
def Obligations.ClearZeroesEveryPixel : Prop :=
  ∀ (ign : Nibble) (s : State), ∃ t, exec (.cls ign) s = .next t ∧ (∀ px py, t.disp.pixel px py = false) ∧
    t.changed = true ∧ t.pc = s.pc + 2 ∧ SameMemory s t ∧
    { t with disp := s.disp, changed := s.changed, pc := s.pc } = s

/-- spec/44_display.md sections 1 and 2 (R211 to R213; wrapping, bit order and N = 0 are D14, notes/assumptions/16.md). DRW
inverts exactly the pixels under the sprite's 1 bits, sets `changed`, and changes no register but VF; a sprite past
0xFFF raises MemoryFault(read) with nothing changed. -/
def Obligations.DrawInvertsExactlyTheCoveredPixels : Prop :=
  ∀ (x y n : Nibble) (s : State),
    (n.toNat = 0 ∨ s.index.toNat + n.toNat - 1 ≤ 0xFFF → ∃ t, exec (.drw x y n) s = .next t ∧
      (∀ px py, SpriteCovers s x y n px py → t.disp.pixel px py = !s.disp.pixel px py) ∧
      (∀ px py, ¬ SpriteCovers s x y n px py → t.disp.pixel px py = s.disp.pixel px py) ∧
      t.changed = true ∧ (∀ j, j ≠ 0xF#4 → t.reg j = s.reg j) ∧ t.pc = s.pc + 2 ∧ SameMemory s t ∧
      { t with v := s.v, disp := s.disp, changed := s.changed, pc := s.pc } = s) ∧
    (0 < n.toNat ∧ 0xFFF < s.index.toNat + n.toNat - 1 →
      exec (.drw x y n) s = .next { s with estate := .fault ⟨.memRead, s.pc, some s.currentOpcode⟩ })

/-- spec/44_display.md section 1 (R211; D14, notes/assumptions/16.md). After a draw VF is 1 if some pixel under the sprite
was set before it, else 0. -/
def Obligations.DrawFlagIsTheCollision : Prop :=
  ∀ (x y n : Nibble) (s : State), (n.toNat = 0 ∨ s.index.toNat + n.toNat - 1 ≤ 0xFFF) →
    ∃ t, exec (.drw x y n) s = .next t ∧
      ((∃ px py, SpriteCovers s x y n px py ∧ s.disp.pixel px py = true) → t.reg 0xF#4 = 1) ∧
      ((∀ px py, SpriteCovers s x y n px py → s.disp.pixel px py = false) → t.reg 0xF#4 = 0)

/-- spec/44_display.md section 2 (R214, derived there; C6; the pixels under the sprite are those of D14,
notes/assumptions/16.md). Drawing one sprite twice at one place, with no other change of
the display in between, restores the display, and the second draw reports a collision iff some pixel under the sprite
was clear before the first. -/
def Obligations.DrawingTwiceRestoresTheDisplay : Prop :=
  ∀ (x y n : Nibble) (s : State), (n.toNat = 0 ∨ s.index.toNat + n.toNat - 1 ≤ 0xFFF) →
    ∃ t, exec (.drw x y n) s = .next t ∧
      ∀ u : State, u.disp = t.disp → u.index = s.index → u.reg x = s.reg x → u.reg y = s.reg y → SameMemory s u →
        ∃ r, exec (.drw x y n) u = .next r ∧ r.disp = s.disp ∧
          ((∃ px py, SpriteCovers s x y n px py ∧ s.disp.pixel px py = false) → r.reg 0xF#4 = 1) ∧
          ((∀ px py, SpriteCovers s x y n px py → s.disp.pixel px py = true) → r.reg 0xF#4 = 0)

/-! ## Input and timers (spec/45_input_timers.md) -/

/-- spec/45_input_timers.md sections 1 and 2 (R230 to R232; the policy is D12, notes/assumptions/13.md). SKP and SKNP: a
register below 16 names its key; from 16 on the policy takes it mod 16, or raises MemoryFault(key) with no other
change. -/
def Obligations.KeySkipsFollowTheKey : Prop :=
  ∀ (x k : Nibble) (s : State),
    ((s.reg x).toNat = k.toNat ∨ s.params.keyIndexPolicy = .mod16 ∧ (s.reg x).toNat % 16 = k.toNat →
      (∃ t, exec (.skp x) s = .next t ∧ (s.key[k.toNat]'k.isLt = true → t.pc = s.pc + 4) ∧
        (s.key[k.toNat]'k.isLt = false → t.pc = s.pc + 2) ∧ SameMemory s t ∧ { t with pc := s.pc } = s) ∧
      (∃ t, exec (.sknp x) s = .next t ∧ (s.key[k.toNat]'k.isLt = false → t.pc = s.pc + 4) ∧
        (s.key[k.toNat]'k.isLt = true → t.pc = s.pc + 2) ∧ SameMemory s t ∧ { t with pc := s.pc } = s)) ∧
    (16 ≤ (s.reg x).toNat ∧ s.params.keyIndexPolicy = .fault →
      exec (.skp x) s = .next { s with estate := .fault ⟨.memKey, s.pc, some s.currentOpcode⟩ } ∧
      exec (.sknp x) s = .next { s with estate := .fault ⟨.memKey, s.pc, some s.currentOpcode⟩ })

/-- R233. LD Vx, DT. -/
def Obligations.ReadDelayTimer : Prop :=
  ∀ (x : Nibble) (s : State), ∃ t, exec (.ldVxDt x) s = .next t ∧ t.reg x = s.dt ∧
    (∀ j, j ≠ x → t.reg j = s.reg j) ∧ t.pc = s.pc + 2 ∧ SameMemory s t ∧ { t with v := s.v, pc := s.pc } = s

/-- R238, R239. LD DT, Vx and LD ST, Vx set their own timer and nothing else. -/
def Obligations.SetTimers : Prop :=
  ∀ (x : Nibble) (s : State),
    (∃ t, exec (.ldDtVx x) s = .next t ∧ t.dt = s.reg x ∧ t.pc = s.pc + 2 ∧ SameMemory s t ∧
      { t with dt := s.dt, pc := s.pc } = s) ∧
    (∃ t, exec (.ldStVx x) s = .next t ∧ t.st = s.reg x ∧ t.pc = s.pc + 2 ∧ SameMemory s t ∧
      { t with st := s.st, pc := s.pc } = s)

/-- spec/45_input_timers.md section 2 (R235). LD Vx, K: the engine is Blocked(X), the step returns that, and nothing else
changes; Vx and pc are not written. -/
def Obligations.KeyWaitBlocks : Prop :=
  ∀ (x : Nibble) (s : State), ∃ t, exec (.ldVxK x) s = .next t ∧ t.estate = .blocked x ∧
    t.stepResult = .blocked x ∧ SameMemory s t ∧ { t with estate := s.estate } = s

/-- spec/45_input_timers.md section 2, spec/60_exceptions.md section 3 (R234, R236, R274; D15, D29, notes/assumptions/18.md).
The press of a key that is up completes a pending FX0A: the key is down, Vx is its index, pc moves by 2, the engine
runs; every other press, and every release, changes that key and nothing else. -/
def Obligations.KeyEdgeCompletesTheWait : Prop :=
  ∀ (k : Nibble) (s : State),
    (∀ x, s.estate = .blocked x → s.keyDown k = false →
      ∃ t, transact (.press k) s = .next (t, .done) ∧ t.keyDown k = true ∧ (t.reg x).toNat = k.toNat ∧
        t.pc = s.pc + 2 ∧ t.estate = .running ∧ (∀ j, j ≠ x → t.reg j = s.reg j) ∧
        (∀ l, l ≠ k → t.keyDown l = s.keyDown l) ∧ SameMemory s t ∧
        { t with v := s.v, pc := s.pc, key := s.key, estate := s.estate } = s) ∧
    ((∀ x, s.estate ≠ .blocked x) ∨ s.keyDown k = true →
      ∃ t, transact (.press k) s = .next (t, .done) ∧ t.keyDown k = true ∧
        (∀ l, l ≠ k → t.keyDown l = s.keyDown l) ∧ SameMemory s t ∧ { t with key := s.key } = s) ∧
    (∃ t, transact (.release k) s = .next (t, .done) ∧ t.keyDown k = false ∧
      (∀ l, l ≠ k → t.keyDown l = s.keyDown l) ∧ SameMemory s t ∧ { t with key := s.key } = s)

/-- spec/10_state.md section 9, spec/60_exceptions.md section 4 (R39, R277, R280; D15, D31, notes/assumptions/18.md). Only the
press of a key that is up, or a reset, ends a key wait, and until then Vx and pc stay. -/
def Obligations.OnlyAKeyEdgeOrResetEndsTheWait : Prop :=
  ∀ (τ : Transaction) (s t : State) (out : Response) (x : Nibble), s.estate = .blocked x →
    transact τ s = .next (t, out) →
      (t.estate = .blocked x ∧ t.pc = s.pc ∧ t.v = s.v ∧ (∀ b, τ = .step b → out = .stepped (.blocked x))) ∨
      τ = .reset ∨ (∃ k, τ = .press k ∧ s.keyDown k = false)

/-! ## The host's transactions (spec/60_exceptions.md, spec/70_reset_and_hazards.md) -/

/-- spec/60_exceptions.md section 3 (R275; both timers in one tick is D16, notes/assumptions/19.md). A tick decrements each
timer that is not 0, in every engine state, and changes nothing else. -/
def Obligations.TickCountsBothTimersDown : Prop :=
  ∀ s : State, ∃ t, transact .tick s = .next (t, .done) ∧ t.dt.toNat = s.dt.toNat - 1 ∧
    t.st.toNat = s.st.toNat - 1 ∧ SameMemory s t ∧ { t with dt := s.dt, st := s.st } = s

/-- spec/60_exceptions.md section 3 (R273, R281; D25, D28, notes/assumptions/23.md). `display_read` returns the grid and the
flag as they are and clears the flag; `sound_read` returns ST and changes nothing. -/
def Obligations.HostReadsDisplayAndSound : Prop :=
  ∀ s : State, transact .displayRead s = .next ({ s with changed := false }, .display s.disp s.changed) ∧
    transact .soundRead s = .next (s, .sound s.st)

/-- spec/60_exceptions.md sections 1 and 3, spec/30_encoding.md section 4 (R270, R272, R90; the byte is held in the model's
own field for that step, notes/assumptions/3.md; the result is read off the state, notes/assumptions/27.md). The
transaction `step` is the step with the host's byte as the input of a draw, and answers the engine state after it: the
fault record where R261's table names a fault, Blocked(X) after FX0A, Running after every other instruction, and the
engine state as it was where the engine was not Running. -/
def Obligations.StepTransactionAnswersTheEngineState : Prop :=
  ∀ (b : Byte) (s : State), ∃ t, step { s with rand8In := some b } = .next t ∧
    transact (.step b) s = .next ({ t with rand8In := none }, .stepped t.estate) ∧
    (s.estate ≠ .running → t = { s with rand8In := some b }) ∧
    (s.estate = .running → (∀ c, s.tabledFault = some c → t.estate = .fault ⟨c, s.pc, s.fetch⟩) ∧
      (∀ w i, s.fetch = some w → decodeWord s.params.strictDecode w = .ok i → ownFault s i = none →
        (∀ x, i = .ldVxK x → t.estate = .blocked x) ∧ ((∀ x, i ≠ .ldVxK x) → t.estate = .running)))

/-- spec/60_exceptions.md section 3 (R271; when load is allowed is D24, notes/assumptions/20.md). Right after reset, a program
of at most 3584 bytes is copied to 0x200 on and nothing else changes; a longer one is rejected with no state change. On
every state but the one reset has just produced, `load` is refused. -/
def Obligations.LoadCopiesTheProgramAfterReset : Prop :=
  (∀ (p : Params) (n : Nat) (rom : List Byte),
    (rom.length ≤ 3584 → ∃ t, transact (.load rom) (State.resetWith p n) = .next (t, .loadOk) ∧
      (∀ (j : Nat) (h : j < rom.length), t.byteAt (0x200 + j) = rom[j]) ∧
      SameMemoryOutside 0x200 rom.length (State.resetWith p n) t ∧
      { t with mem := [] } = State.resetWith p n) ∧
    (3584 < rom.length → transact (.load rom) (State.resetWith p n) = .next (State.resetWith p n, .loadRejected))) ∧
  (∀ (s : State) (rom : List Byte), s ≠ State.resetWith s.params s.draws →
    transact (.load rom) s = .refused .loadAfterStart)

/-- spec/10_state.md section 12, spec/70_reset_and_hazards.md section 1 (R42, R300; the values the source does not state are
D18, the font D13 and G3, notes/assumptions/7.md, 8.md). What reset leaves in every component: each register and flag, and
all of memory, the 80 font bytes of R33's table and 0 from there on; and that `reset` is valid in every state and leaves
just that, at the parameters and the count of draws as they were (the model's choice, notes/assumptions/4.md). -/
def Obligations.ResetLeavesTheStatedValues : Prop :=
  (∀ j, State.reset.reg j = 0) ∧ State.reset.pc = 0x200 ∧ State.reset.index = 0 ∧ State.reset.sp = 0 ∧
  (∀ (k : Nat) (h : k < 16), State.reset.stack[k] = 0) ∧ State.reset.dt = 0 ∧ State.reset.st = 0 ∧
  (∀ px py, State.reset.disp.pixel px py = false) ∧ State.reset.changed = false ∧
  (∀ k, State.reset.keyDown k = false) ∧ State.reset.currentOpcode = 0x0000 ∧ State.reset.estate = .running ∧
  (∀ a, 80 ≤ a → State.reset.byteAt a = 0) ∧
  (List.range 80).map State.reset.byteAt =
    ([0xF0, 0x90, 0x90, 0x90, 0xF0] ++ [0x20, 0x60, 0x20, 0x20, 0x70] ++ [0xF0, 0x10, 0xF0, 0x80, 0xF0] ++
      [0xF0, 0x10, 0xF0, 0x10, 0xF0] ++ [0x90, 0x90, 0xF0, 0x10, 0x10] ++ [0xF0, 0x80, 0xF0, 0x10, 0xF0] ++
      [0xF0, 0x80, 0xF0, 0x90, 0xF0] ++ [0xF0, 0x10, 0x20, 0x40, 0x40] ++ [0xF0, 0x90, 0xF0, 0x90, 0xF0] ++
      [0xF0, 0x90, 0xF0, 0x10, 0xF0] ++ [0xF0, 0x90, 0xF0, 0x90, 0x90] ++ [0xE0, 0x90, 0xE0, 0x90, 0xE0] ++
      [0xF0, 0x80, 0x80, 0x80, 0xF0] ++ [0xE0, 0x90, 0x90, 0x90, 0xE0] ++ [0xF0, 0x80, 0xF0, 0x80, 0xF0] ++
      [0xF0, 0x80, 0xF0, 0x80, 0x80]) ∧
  (∀ s : State, ∃ t, transact .reset s = .next (t, .done) ∧
    { t with params := defaultParams, draws := 0 } = State.reset ∧ t.params = s.params ∧ t.draws = s.draws)

/-- spec/60_exceptions.md section 1, spec/70_reset_and_hazards.md section 1 (R266, R267, R300; D17, notes/assumptions/2.md). In
the fault state every run without a reset keeps the same record, and each of its steps returns it; a reset gives
Running. -/
def Obligations.OnlyResetLeavesTheFaultState : Prop :=
  ∀ (τs : List Transaction) (s t : State) (outs : List Response) (r : FaultRecord), s.estate = .fault r →
    Transaction.reset ∉ τs → runTransactions τs s = .next (t, outs) →
      t.estate = .fault r ∧ t.v = s.v ∧ t.pc = s.pc ∧ SameMemory s t ∧
      (∀ e, Response.stepped e ∈ outs → e = .fault r) ∧
      (∃ u, transact .reset t = .next (u, .done) ∧ u.estate = .running)

/-! ## Rules of the whole machine -/

/-- spec/10_state.md sections 3, 5, 9 and 12 (R25, R27, R39, R42; D3, D4, D23). The state after reset meets the
invariant. -/
def Obligations.ResetMeetsTheInvariant : Prop := State.reset.Inv

/-- spec/10_state.md sections 3, 5, 7 and 9 (R25, R27, R39, R263, derived there in part; D3, D4, D23,
notes/assumptions/15.md). Every step from a state that meets the invariant answers a next state that meets it. -/
def Obligations.EveryStepKeepsTheInvariant : Prop :=
  ∀ s : State, s.Inv → ∃ t, step s = .next t ∧ t.Inv

/-- spec/60_exceptions.md section 3 (R270, R276; D2, notes/assumptions/23.md). Every transaction of the host, in any order
and number, keeps the invariant. -/
def Obligations.EveryRunKeepsTheInvariant : Prop :=
  ∀ (τs : List Transaction) (s t : State) (outs : List Response), s.Inv →
    runTransactions τs s = .next (t, outs) → t.Inv

/-- spec/20_memory.md section 1 (R50; the list form is the model's, notes/assumptions/5.md). Memories in canonical form are
equal as data exactly when every address reads the same. -/
def Obligations.CanonicalMemoriesAreEqualIffTheyReadTheSame : Prop :=
  ∀ (p : Params) (m m' : Memory), Memory.wf (resetByte p) m = true → Memory.wf (resetByte p) m' = true →
    ((∀ a, Memory.read (resetByte p) m a = Memory.read (resetByte p) m' a) ↔ m = m')

/-- R22. The six flag-writing instructions leave 0 or 1 in VF, where VF is not their destination and they do not fault;
every other instruction leaves VF unchanged unless VF is its destination. -/
def Obligations.VfIsWrittenByTheFlagInstructionsOnly : Prop :=
  ∀ (i : Instr) (s : State), ∃ t, exec i s = .next t ∧
    (writesFlag i = true → writesReg 0xF#4 i = false → ownFault s i = none → t.reg 0xF#4 = 0 ∨ t.reg 0xF#4 = 1) ∧
    (writesFlag i = false → writesReg 0xF#4 i = false → t.reg 0xF#4 = s.reg 0xF#4)

/-- spec/10_state.md section 2 (R21 to R23). A register that an instruction changes is a destination of it in R23's table,
or VF for a flag-writing instruction. -/
def Obligations.OnlyTabledRegistersChange : Prop :=
  ∀ (i : Instr) (s t : State) (j : Nibble), exec i s = .next t → t.reg j ≠ s.reg j →
    writesReg j i = true ∨ (writesFlag i = true ∧ j = 0xF#4)

/-- spec/10_state.md section 2 (R23). A register that R23's table does not list as read by an instruction has no influence
on what it does: with any other value in it, the result is the same, or the same but for that register's own value. -/
def Obligations.UnlistedRegistersAreNotRead : Prop :=
  ∀ (i : Instr) (s : State) (j : Nibble) (b : Byte), readsReg j i = false →
    ∃ t t', exec i s = .next t ∧ exec i (s.setReg j b) = .next t' ∧ (t' = t ∨ t' = t.setReg j b)

/-- spec/10_state.md sections 2 to 9, spec/20_memory.md section 4, spec/41_control_flow.md section 1 (R21 to R24, R26, R29
to R31, R34 to R36, R56, R110; the index advance is D11, notes/assumptions/12.md; on a fault nothing changes, D5,
notes/assumptions/14.md). Each component changes only under the instructions the rules name: a general register only as
a destination or as VF of a flag-writing instruction; pc moves by 2 but for a fault and FX0A, which leave it, a jump,
call or return, and a skip, which moves it by 2 or 4; the model's own fields of the draw change under CXNN only
(notes/assumptions/3.md); keys and parameters never do. -/
def Obligations.OnlyNamedInstructionsWriteEachComponent : Prop :=
  ∀ (i : Instr) (s t : State), exec i s = .next t →
    (∀ j, t.reg j ≠ s.reg j → writesReg j i = true ∨ (writesFlag i = true ∧ j = 0xF#4)) ∧
    (∀ c, ownFault s i = some c → t.pc = s.pc) ∧
    (t.pc ≠ s.pc + 2 → (∃ c, ownFault s i = some c) ∨ (∃ x, i = .ldVxK x ∧ t.pc = s.pc) ∨ (∃ ign, i = .ret ign) ∨
      (∃ nnn, i = .jp nnn ∨ i = .call nnn ∨ i = .jpV0 nnn) ∨
      (t.pc = s.pc + 4 ∧ ((∃ x nn, i = .seImm x nn ∨ i = .sneImm x nn) ∨
        (∃ x y n, i = .seReg x y n ∨ i = .sneReg x y n) ∨ (∃ x, i = .skp x ∨ i = .sknp x)))) ∧
    (t.index ≠ s.index → (∃ nnn, i = .ldI nnn) ∨ (∃ x, i = .addI x ∨ i = .ldF x) ∨
      (s.params.indexAdvance = .xPlus1 ∧ ∃ x, i = .ldMemI x ∨ i = .ldIMem x)) ∧
    (t.sp ≠ s.sp → (∃ nnn, i = .call nnn) ∨ ∃ ign, i = .ret ign) ∧
    (t.stack ≠ s.stack → ∃ nnn, i = .call nnn) ∧
    (t.dt ≠ s.dt → ∃ x, i = .ldDtVx x) ∧
    (t.st ≠ s.st → ∃ x, i = .ldStVx x) ∧
    (t.mem ≠ s.mem → ∃ x, i = .ldB x ∨ i = .ldMemI x) ∧
    (t.disp ≠ s.disp ∨ t.changed ≠ s.changed → t.changed = true ∧
      ((∃ ign, i = .cls ign) ∨ ∃ x y n, i = .drw x y n)) ∧
    (t.estate ≠ s.estate → (∃ x, i = .ldVxK x) ∨ ∃ c, ownFault s i = some c) ∧
    (t.rand8In ≠ s.rand8In ∨ t.draws ≠ s.draws → ∃ x nn, i = .rnd x nn) ∧
    t.key = s.key ∧ t.params = s.params ∧ t.currentOpcode = s.currentOpcode

/-- spec/60_exceptions.md section 3, spec/10_state.md section 6 (R30, R31, R275, R276; D2, D16, notes/assumptions/19.md,
23.md). A tick and a step commute unless the step runs one of the three instructions that touch a timer. -/
def Obligations.TicksCommuteWithStepsThatTouchNoTimer : Prop :=
  ∀ s : State,
    (∀ w, s.fetch = some w → ∀ x, decodeWord s.params.strictDecode w ≠ .ok (.ldVxDt x) ∧
      decodeWord s.params.strictDecode w ≠ .ok (.ldDtVx x) ∧ decodeWord s.params.strictDecode w ≠ .ok (.ldStVx x)) →
    ∃ t, step s = .next t ∧ step s.doTick = .next t.doTick
end

