-- ==== Sys2Proof/Laws/Decode.lean ====
section
/-! SUPPORT. The fields of each instruction format (spec/30_encoding.md R82, R83): every field reads back from the word
it was put into, and a word is made of its fields. -/

namespace Sys2Proof

/-! ### Fields of the formats -/

theorem opField_fAddr (op : Nibble) (nnn : Addr) : opField (fAddr op nnn) = op := by
  apply BitVec.eq_of_getLsbD_eq; intro i hi
  simp only [opField, fAddr, BitVec.getLsbD_extractLsb', BitVec.getLsbD_append]
  simp [hi]

theorem nnnField_fAddr (op : Nibble) (nnn : Addr) : nnnField (fAddr op nnn) = nnn := by
  apply BitVec.eq_of_getLsbD_eq; intro i hi
  simp only [nnnField, fAddr, BitVec.getLsbD_extractLsb', BitVec.getLsbD_append]
  simp [hi]

theorem opField_fXnn (op x : Nibble) (nn : Byte) : opField (fXnn op x nn) = op := by
  apply BitVec.eq_of_getLsbD_eq; intro i hi
  simp only [opField, fXnn, BitVec.getLsbD_extractLsb', BitVec.getLsbD_append]
  simp [hi]

theorem xField_fXnn (op x : Nibble) (nn : Byte) : xField (fXnn op x nn) = x := by
  apply BitVec.eq_of_getLsbD_eq; intro i hi
  simp only [xField, fXnn, BitVec.getLsbD_extractLsb', BitVec.getLsbD_append]
  simp [hi, show 8 + i < 12 by omega]

theorem nnField_fXnn (op x : Nibble) (nn : Byte) : nnField (fXnn op x nn) = nn := by
  apply BitVec.eq_of_getLsbD_eq; intro i hi
  simp only [nnField, fXnn, BitVec.getLsbD_extractLsb', BitVec.getLsbD_append]
  simp [hi, show i < 12 by omega]

/-- A word of format F-xyn is one of format F-xnn whose byte is Y and N. -/
theorem fXyn_eq_fXnn (op x y n : Nibble) : fXyn op x y n = fXnn op x (y ++ n) := by
  rfl

theorem opField_fXyn (op x y n : Nibble) : opField (fXyn op x y n) = op := by
  rw [fXyn_eq_fXnn, opField_fXnn]

theorem xField_fXyn (op x y n : Nibble) : xField (fXyn op x y n) = x := by
  rw [fXyn_eq_fXnn, xField_fXnn]

theorem yField_fXyn (op x y n : Nibble) : yField (fXyn op x y n) = y := by
  apply BitVec.eq_of_getLsbD_eq; intro i hi
  simp only [yField, fXyn, BitVec.getLsbD_extractLsb', BitVec.getLsbD_append]
  simp [hi, show 4 + i < 8 by omega, show 4 + i < 12 by omega]

theorem nField_fXyn (op x y n : Nibble) : nField (fXyn op x y n) = n := by
  apply BitVec.eq_of_getLsbD_eq; intro i hi
  simp only [nField, fXyn, BitVec.getLsbD_extractLsb', BitVec.getLsbD_append]
  simp [hi, show i < 8 by omega, show i < 12 by omega]

/-! ### A word from its fields -/

theorem fAddr_fields (w : Word) : fAddr (opField w) (nnnField w) = w := by
  apply BitVec.eq_of_getLsbD_eq; intro i hi
  simp only [opField, nnnField, fAddr, BitVec.getLsbD_extractLsb', BitVec.getLsbD_append]
  by_cases h : i < 12
  · simp [h]
  · simp [h, show i - 12 < 4 by omega, show 12 + (i - 12) = i by omega]

theorem fXnn_fields (w : Word) : fXnn (opField w) (xField w) (nnField w) = w := by
  apply BitVec.eq_of_getLsbD_eq; intro i hi
  simp only [opField, xField, nnField, fXnn, BitVec.getLsbD_extractLsb', BitVec.getLsbD_append]
  by_cases h : i < 12
  · by_cases h8 : i < 8
    · simp [h, h8]
    · simp [h, h8, show i - 8 < 4 by omega, show 8 + (i - 8) = i by omega]
  · simp [h, show i - 12 < 4 by omega, show 12 + (i - 12) = i by omega]

theorem nnField_eq (w : Word) : nnField w = yField w ++ nField w := by
  apply BitVec.eq_of_getLsbD_eq; intro i hi
  simp only [nnField, yField, nField, BitVec.getLsbD_extractLsb', BitVec.getLsbD_append]
  by_cases h : i < 4
  · simp [h, hi]
  · simp [h, hi, show i - 4 < 4 by omega, show 4 + (i - 4) = i by omega]

theorem fXyn_fields (w : Word) : fXyn (opField w) (xField w) (yField w) (nField w) = w := by
  rw [fXyn_eq_fXnn, ← nnField_eq, fXnn_fields]

/-! ### Fields as numbers (R81, R82) -/

theorem opField_toNat (w : Word) : (opField w).toNat = w.toNat / 0x1000 := by
  have := w.isLt
  simp only [opField, BitVec.extractLsb'_toNat, Nat.shiftRight_eq_div_pow]
  omega

theorem xField_toNat (w : Word) : (xField w).toNat = w.toNat / 0x100 % 0x10 := by
  simp only [xField, BitVec.extractLsb'_toNat, Nat.shiftRight_eq_div_pow]

theorem yField_toNat (w : Word) : (yField w).toNat = w.toNat / 0x10 % 0x10 := by
  simp only [yField, BitVec.extractLsb'_toNat, Nat.shiftRight_eq_div_pow]

theorem nField_toNat (w : Word) : (nField w).toNat = w.toNat % 0x10 := by
  simp [nField, BitVec.extractLsb'_toNat]

theorem nnField_toNat (w : Word) : (nnField w).toNat = w.toNat % 0x100 := by
  simp [nnField, BitVec.extractLsb'_toNat]

theorem nnnField_toNat (w : Word) : (nnnField w).toNat = w.toNat % 0x1000 := by
  simp [nnnField, BitVec.extractLsb'_toNat]

/-! ### The decoder, family by family (R85 to R89) -/

/-- A nibble is one of its sixteen values. -/
theorem nibble_cases (x : Nibble) : x = 0x0 ∨ x = 0x1 ∨ x = 0x2 ∨ x = 0x3 ∨ x = 0x4 ∨ x = 0x5 ∨ x = 0x6 ∨ x = 0x7 ∨
    x = 0x8 ∨ x = 0x9 ∨ x = 0xA ∨ x = 0xB ∨ x = 0xC ∨ x = 0xD ∨ x = 0xE ∨ x = 0xF := by
  revert x; decide

variable {strict : Bool} {w : Word}

theorem decodeWord_family0 (h : opField w = 0x0) : decodeWord strict w =
    decodeSys strict w := by
  simp [decodeWord, h]

theorem decodeWord_family1 (h : opField w = 0x1) : decodeWord strict w =
    .ok (.jp (nnnField w)) := by
  simp [decodeWord, h]

theorem decodeWord_family2 (h : opField w = 0x2) : decodeWord strict w =
    .ok (.call (nnnField w)) := by
  simp [decodeWord, h]

theorem decodeWord_family3 (h : opField w = 0x3) : decodeWord strict w =
    .ok (.seImm (xField w) (nnField w)) := by
  simp [decodeWord, h]

theorem decodeWord_family4 (h : opField w = 0x4) : decodeWord strict w =
    .ok (.sneImm (xField w) (nnField w)) := by
  simp [decodeWord, h]

theorem decodeWord_family5 (h : opField w = 0x5) : decodeWord strict w =
    checkStrict strict (nField w) (.seReg (xField w) (yField w) (nField w)) := by
  simp [decodeWord, h]

theorem decodeWord_family6 (h : opField w = 0x6) : decodeWord strict w =
    .ok (.ldImm (xField w) (nnField w)) := by
  simp [decodeWord, h]

theorem decodeWord_family7 (h : opField w = 0x7) : decodeWord strict w =
    .ok (.addImm (xField w) (nnField w)) := by
  simp [decodeWord, h]

theorem decodeWord_family8 (h : opField w = 0x8) : decodeWord strict w =
    decodeAlu w := by
  simp [decodeWord, h]

theorem decodeWord_family9 (h : opField w = 0x9) : decodeWord strict w =
    checkStrict strict (nField w) (.sneReg (xField w) (yField w) (nField w)) := by
  simp [decodeWord, h]

theorem decodeWord_familyA (h : opField w = 0xA) : decodeWord strict w =
    .ok (.ldI (nnnField w)) := by
  simp [decodeWord, h]

theorem decodeWord_familyB (h : opField w = 0xB) : decodeWord strict w =
    .ok (.jpV0 (nnnField w)) := by
  simp [decodeWord, h]

theorem decodeWord_familyC (h : opField w = 0xC) : decodeWord strict w =
    .ok (.rnd (xField w) (nnField w)) := by
  simp [decodeWord, h]

theorem decodeWord_familyD (h : opField w = 0xD) : decodeWord strict w =
    .ok (.drw (xField w) (yField w) (nField w)) := by
  simp [decodeWord, h]

theorem decodeWord_familyE (h : opField w = 0xE) : decodeWord strict w =
    decodeKey w := by
  simp [decodeWord, h]

theorem decodeWord_familyF (h : opField w = 0xF) : decodeWord strict w =
    decodeMisc w := by
  simp [decodeWord, h]

/-- What the strict check lets through. -/
theorem checkStrict_ok {u : Nibble} {i j : Instr} :
    checkStrict strict u i = .ok j ↔ j = i ∧ (!strict || u == 0) = true := by
  unfold checkStrict
  cases strict <;> by_cases h : u = 0#4 <;> simp [h, @eq_comm _ i j]

/-- What the strict check rejects. -/
theorem checkStrict_error {u : Nibble} {i : Instr} {e : DecodeError} :
    checkStrict strict u i = .error e ↔ e = .strictBits ∧ strict = true ∧ u ≠ 0 := by
  unfold checkStrict
  cases strict <;> by_cases h : u = 0#4 <;> simp [h, @eq_comm _ DecodeError.strictBits e]

/-! ### A word rebuilt from what the decoder tested -/

theorem fAddr_of_fields {op : Nibble} (h : opField w = op) : fAddr op (nnnField w) = w := by
  rw [← h, fAddr_fields]

theorem fXnn_of_fields {op : Nibble} {nn : Byte} (h : opField w = op) (h' : nnField w = nn) :
    fXnn op (xField w) nn = w := by
  rw [← h, ← h', fXnn_fields]

theorem fXyn_of_fields {op n : Nibble} (h : opField w = op) (h' : nField w = n) :
    fXyn op (xField w) (yField w) n = w := by
  rw [← h, ← h', fXyn_fields]

end Sys2Proof
end

