-- ==== Sys2Proof/Laws/Display.lean ====
section
/-! SUPPORT. What the draw loop of spec/44_display.md R211 does: it inverts the pixels of a list without repeats, the
pixels under the sprite's 1 bits, and reports whether one of them was set. -/

namespace Sys2Proof.Machine

/-! ### Pixels -/

theorem Display.pixel_flip (d : Display) (x x' : Fin 64) (y y' : Fin 32) :
    (d.flip x y).pixel x' y' = if (x', y') = (x, y) then !d.pixel x y else d.pixel x' y' := by
  simp only [Display.pixel, Display.flip, Vector.getElem_set, Prod.mk.injEq]
  by_cases hy : y = y'
  · subst hy
    by_cases hx : x = x'
    · subst hx; simp
    · simp [Fin.val_inj, hx, Ne.symm hx]
  · simp [Fin.val_inj, hy, Ne.symm hy]

@[simp] theorem Display.pixel_clear (x : Fin 64) (y : Fin 32) : Display.clear.pixel x y = false := by
  simp [Display.pixel, Display.clear]

/-- Displays that show the same pixels are equal. -/
theorem Display.ext {d d' : Display} (h : ∀ x y, d.pixel x y = d'.pixel x y) : d = d' := by
  apply Vector.ext; intro y hy
  apply Vector.ext; intro x hx
  exact h ⟨x, hx⟩ ⟨y, hy⟩

/-! ### Inverting a list of pixels -/

/-- One pixel of R211's inner body: the collision flag sees the pixel before it is inverted. -/
def plot (acc : Display × Bool) (p : Fin 64 × Fin 32) : Display × Bool :=
  (acc.1.flip p.1 p.2, acc.2 || acc.1.pixel p.1 p.2)

theorem plot_pixel (ps : List (Fin 64 × Fin 32)) (hp : ps.Nodup) (acc : Display × Bool) (x : Fin 64) (y : Fin 32) :
    (ps.foldl plot acc).1.pixel x y = if (x, y) ∈ ps then !acc.1.pixel x y else acc.1.pixel x y := by
  induction ps generalizing acc with
  | nil => simp
  | cons p ps ih =>
    obtain ⟨hnot, hps⟩ := List.nodup_cons.1 hp
    rw [List.foldl_cons, ih hps]
    simp only [plot, Display.pixel_flip, List.mem_cons]
    by_cases h : (x, y) = p
    · subst h; simp [hnot]
    · simp [h]

theorem plot_collision (ps : List (Fin 64 × Fin 32)) (hp : ps.Nodup) (acc : Display × Bool) :
    (ps.foldl plot acc).2 = (acc.2 || ps.any (fun p => acc.1.pixel p.1 p.2)) := by
  induction ps generalizing acc with
  | nil => simp
  | cons p ps ih =>
    obtain ⟨hnot, hps⟩ := List.nodup_cons.1 hp
    rw [List.foldl_cons, ih hps, List.any_cons]
    have : ps.any (fun q => (plot acc p).1.pixel q.1 q.2) = ps.any (fun q => acc.1.pixel q.1 q.2) := by
      rw [Bool.eq_iff_iff, List.any_eq_true, List.any_eq_true]
      refine exists_congr fun q => and_congr_right fun hq => ?_
      have hne : (q.1, q.2) ≠ (p.1, p.2) := fun e => hnot ((show q = p from e) ▸ hq)
      simp only [plot, Display.pixel_flip, if_neg hne]
    rw [this]
    simp [plot, Bool.or_assoc]

/-! ### The pixels under a sprite -/

/-- The pixels under the 1 bits of sprite row `r` (R212, R213). -/
def litRow (x0 y0 : Byte) (r : Nat) (row : Byte) : List (Fin 64 × Fin 32) :=
  ((List.range 8).filter (fun c => row.getLsbD (7 - c))).map (fun c => (wrapColumn x0 c, wrapRow y0 r))

/-- The pixels under the 1 bits of the rows from row `r` on. -/
def lit (x0 y0 : Byte) : Nat → List Byte → List (Fin 64 × Fin 32)
  | _, [] => []
  | r, row :: rows => litRow x0 y0 r row ++ lit x0 y0 (r + 1) rows

theorem drawRow_eq_plot (x0 y0 : Byte) (r : Nat) (row : Byte) (acc : Display × Bool) :
    drawRow x0 y0 r row acc = (litRow x0 y0 r row).foldl plot acc := by
  rw [litRow, List.foldl_map, List.foldl_filter]
  rfl

theorem drawRows_eq_plot (x0 y0 : Byte) (r : Nat) (rows : List Byte) (acc : Display × Bool) :
    drawRows x0 y0 r rows acc = (lit x0 y0 r rows).foldl plot acc := by
  induction rows generalizing r acc with
  | nil => rfl
  | cons row rows ih => rw [drawRows, ih, drawRow_eq_plot, lit, List.foldl_append]

theorem mem_lit (x0 y0 : Byte) (r : Nat) (rows : List Byte) (p : Fin 64 × Fin 32) :
    p ∈ lit x0 y0 r rows ↔ ∃ k c : Nat, ∃ h : k < rows.length, c < 8 ∧ p = (wrapColumn x0 c, wrapRow y0 (r + k)) ∧
      (rows[k]).getLsbD (7 - c) = true := by
  induction rows generalizing r with
  | nil => simp [lit]
  | cons row rows ih =>
    rw [lit, List.mem_append, ih]
    simp only [litRow, List.mem_map, List.mem_filter, List.mem_range]
    constructor
    · rintro (⟨c, ⟨hc, hb⟩, rfl⟩ | ⟨k, c, h, hc, rfl, hb⟩)
      · exact ⟨0, c, by simp, hc, rfl, hb⟩
      · exact ⟨k + 1, c, by simpa using h, hc, by rw [Nat.add_assoc, Nat.add_comm 1 k], by simpa using hb⟩
    · rintro ⟨k, c, h, hc, rfl, hb⟩
      cases k with
      | zero => exact .inl ⟨c, ⟨hc, hb⟩, rfl⟩
      | succ k =>
        exact .inr ⟨k, c, by simpa using h, hc, by rw [Nat.add_assoc, Nat.add_comm 1 k], by simpa using hb⟩

theorem wrapColumn_inj {x0 : Byte} {c c' : Nat} (hc : c < 8) (hc' : c' < 8)
    (h : wrapColumn x0 c = wrapColumn x0 c') : c = c' := by
  have := congrArg Fin.val h
  simp only [wrapColumn, Fin.val_ofNat] at this
  omega

theorem wrapRow_inj {y0 : Byte} {r r' : Nat} (hr : r < 32) (hr' : r' < 32) (h : wrapRow y0 r = wrapRow y0 r') :
    r = r' := by
  have := congrArg Fin.val h
  simp only [wrapRow, Fin.val_ofNat] at this
  omega

/-- R212: no two pixels of one sprite land on the same display pixel. -/
theorem lit_nodup (x0 y0 : Byte) (r : Nat) (rows : List Byte) (h : r + rows.length ≤ 32) :
    (lit x0 y0 r rows).Nodup := by
  induction rows generalizing r with
  | nil => simp [lit]
  | cons row rows ih =>
    simp only [List.length_cons] at h
    rw [lit, List.nodup_append]
    refine ⟨?_, ih (r + 1) (by omega), ?_⟩
    · refine (List.nodup_map_iff_inj_on (List.nodup_range.filter _)).2 fun c hc c' hc' e => ?_
      simp only [List.mem_filter, List.mem_range] at hc hc'
      exact wrapColumn_inj hc.1 hc'.1 (Prod.mk.inj e).1
    · intro p hp q hq e
      subst e
      simp only [litRow, List.mem_map, List.mem_filter, List.mem_range] at hp
      obtain ⟨c, _, rfl⟩ := hp
      obtain ⟨k, c', hk, _, e, _⟩ := (mem_lit x0 y0 (r + 1) rows _).1 hq
      have := wrapRow_inj (by omega) (by omega) (Prod.mk.inj e).2
      omega

/-- The display after the draw loop. -/
theorem drawRows_pixel (x0 y0 : Byte) (rows : List Byte) (h : rows.length ≤ 32) (d : Display) (c : Bool)
    (px : Fin 64) (py : Fin 32) :
    (drawRows x0 y0 0 rows (d, c)).1.pixel px py =
      if (px, py) ∈ lit x0 y0 0 rows then !d.pixel px py else d.pixel px py := by
  rw [drawRows_eq_plot, plot_pixel _ (lit_nodup _ _ _ _ (by omega))]

/-- The collision flag after the draw loop. -/
theorem drawRows_collision (x0 y0 : Byte) (rows : List Byte) (h : rows.length ≤ 32) (d : Display) :
    (drawRows x0 y0 0 rows (d, false)).2 = (lit x0 y0 0 rows).any (fun p => d.pixel p.1 p.2) := by
  rw [drawRows_eq_plot, plot_collision _ (lit_nodup _ _ _ _ (by omega)), Bool.false_or]

end Sys2Proof.Machine
end

