-- ==== Sys2Proof/Laws/Memory.lean ====
section
/-! SUPPORT. The laws of memory as a canonical list: a write keeps the canonical form, a read after a write gives the
byte at that address and leaves every other address alone, and canonical memories that read the same are equal. -/

namespace Sys2Proof.Machine

variable (d : Nat → Byte)

@[simp] theorem Memory.read_nil (a : Nat) : Memory.read d [] a = d a := rfl

theorem Memory.wfFrom_cons {lo k : Nat} {b : Byte} {m : Memory} :
    Memory.wfFrom d lo ((k, b) :: m) = true ↔ lo ≤ k ∧ k < 4096 ∧ b ≠ d k ∧ Memory.wfFrom d (k + 1) m = true := by
  simp [Memory.wfFrom, and_assoc]

theorem Memory.wfFrom_mono {lo lo' : Nat} {m : Memory} (h : lo' ≤ lo) (hm : Memory.wfFrom d lo m = true) :
    Memory.wfFrom d lo' m = true := by
  cases m with
  | nil => rfl
  | cons c m =>
    obtain ⟨k, b⟩ := c
    rw [Memory.wfFrom_cons] at hm ⊢
    exact ⟨by omega, hm.2⟩

/-- Below its first address a canonical memory reads as the reset contents. -/
theorem Memory.read_below {lo a : Nat} {m : Memory} (hm : Memory.wfFrom d lo m = true) (ha : a < lo) :
    Memory.read d m a = d a := by
  induction m generalizing lo with
  | nil => rfl
  | cons c m ih =>
    obtain ⟨k, b⟩ := c
    rw [Memory.wfFrom_cons] at hm
    rw [Memory.read, if_neg (by omega)]
    exact ih hm.2.2.2 (by omega)

/-- A write leaves every other address alone. -/
theorem Memory.read_write_ne {m : Memory} {a a' : Nat} {b : Byte} (h : a' ≠ a) :
    Memory.read d (Memory.write d m a b) a' = Memory.read d m a' := by
  induction m with
  | nil =>
    by_cases hb : b = d a
    · simp [Memory.write, hb]
    · simp [Memory.write, hb, Memory.read, Ne.symm h]
  | cons c m ih =>
    obtain ⟨k, c⟩ := c
    simp only [Memory.write]
    split_ifs <;> simp_all [Memory.read, Ne.symm]

/-- A read after a write to the same address gives the byte written. -/
theorem Memory.read_write_same {lo a : Nat} {m : Memory} {b : Byte} (hm : Memory.wfFrom d lo m = true) :
    Memory.read d (Memory.write d m a b) a = b := by
  induction m generalizing lo with
  | nil =>
    by_cases hb : b = d a
    · simp [Memory.write, hb]
    · simp [Memory.write, hb, Memory.read]
  | cons c m ih =>
    obtain ⟨k, c⟩ := c
    rw [Memory.wfFrom_cons] at hm
    simp only [Memory.write]
    split_ifs with h1 h2 h3 h4
    · rw [Memory.read, if_neg (by omega), Memory.read_below d hm.2.2.2 (by omega), h2]
    · simp [Memory.read]
    · rw [Memory.read_below d hm.2.2.2 (by omega), h4]
    · simp [Memory.read]
    · rw [Memory.read, if_neg (by omega)]
      exact ih hm.2.2.2

/-- A write inside the address space keeps the canonical form. -/
theorem Memory.write_wfFrom {lo a : Nat} {m : Memory} {b : Byte} (hm : Memory.wfFrom d lo m = true)
    (hlo : lo ≤ a) (ha : a < 4096) : Memory.wfFrom d lo (Memory.write d m a b) = true := by
  induction m generalizing lo with
  | nil =>
    by_cases hb : b = d a
    · simp [Memory.write, hb, Memory.wfFrom]
    · simp [Memory.write, hb, Memory.wfFrom, hlo, ha]
  | cons c m ih =>
    obtain ⟨k, c⟩ := c
    have hk := (Memory.wfFrom_cons d).1 hm
    simp only [Memory.write]
    split_ifs with h1 h2 h3 h4
    · exact hm
    · exact (Memory.wfFrom_cons d).2 ⟨hlo, ha, h2, (Memory.wfFrom_cons d).2 ⟨by omega, hk.2⟩⟩
    · exact Memory.wfFrom_mono d (by omega) hk.2.2.2
    · exact (Memory.wfFrom_cons d).2 ⟨hlo, ha, h4, by rw [h3]; exact hk.2.2.2⟩
    · exact (Memory.wfFrom_cons d).2 ⟨hk.1, hk.2.1, hk.2.2.1, ih hk.2.2.2 (by omega)⟩

theorem Memory.write_wf {a : Nat} {m : Memory} {b : Byte} (hm : Memory.wf d m = true) (ha : a < 4096) :
    Memory.wf d (Memory.write d m a b) = true := Memory.write_wfFrom d hm (Nat.zero_le a) ha

@[simp] theorem Memory.wf_nil : Memory.wf d [] = true := rfl

/-- The head of a canonical memory is seen by a read. -/
theorem Memory.read_head {k : Nat} {b : Byte} {m : Memory} : Memory.read d ((k, b) :: m) k = b := by
  simp [Memory.read]

/-- The rest of a canonical memory, read anywhere: the head is the only difference. -/
theorem Memory.read_tail {lo k a : Nat} {b : Byte} {m : Memory} (hm : Memory.wfFrom d lo ((k, b) :: m) = true) :
    Memory.read d m a = if a = k then d k else Memory.read d ((k, b) :: m) a := by
  rw [Memory.wfFrom_cons] at hm
  split_ifs with h
  · rw [h]; exact Memory.read_below d hm.2.2.2 (by omega)
  · rw [Memory.read, if_neg (fun e => h e.symm)]

theorem inRange_iff {a n : Nat} : inRange a n = true ↔ n = 0 ∨ a + n ≤ 4096 := by
  simp [inRange]

end Sys2Proof.Machine
end

