-- ==== Sys2Proof/Laws/State.lean ====
section
/-! SUPPORT. What each update of the state leaves in each field and in each accessor, so that no proof unfolds a record
update. -/

namespace Sys2Proof.Machine

variable (s : State)

/-! ### setReg -/

@[simp] theorem State.setReg_params (x : Nibble) (b : Byte) : (s.setReg x b).params = s.params := rfl
@[simp] theorem State.setReg_v (x : Nibble) (b : Byte) : (s.setReg x b).v = s.v.set x.toNat b x.isLt := rfl
@[simp] theorem State.setReg_pc (x : Nibble) (b : Byte) : (s.setReg x b).pc = s.pc := rfl
@[simp] theorem State.setReg_index (x : Nibble) (b : Byte) : (s.setReg x b).index = s.index := rfl
@[simp] theorem State.setReg_stack (x : Nibble) (b : Byte) : (s.setReg x b).stack = s.stack := rfl
@[simp] theorem State.setReg_sp (x : Nibble) (b : Byte) : (s.setReg x b).sp = s.sp := rfl
@[simp] theorem State.setReg_dt (x : Nibble) (b : Byte) : (s.setReg x b).dt = s.dt := rfl
@[simp] theorem State.setReg_st (x : Nibble) (b : Byte) : (s.setReg x b).st = s.st := rfl
@[simp] theorem State.setReg_mem (x : Nibble) (b : Byte) : (s.setReg x b).mem = s.mem := rfl
@[simp] theorem State.setReg_disp (x : Nibble) (b : Byte) : (s.setReg x b).disp = s.disp := rfl
@[simp] theorem State.setReg_changed (x : Nibble) (b : Byte) : (s.setReg x b).changed = s.changed := rfl
@[simp] theorem State.setReg_key (x : Nibble) (b : Byte) : (s.setReg x b).key = s.key := rfl
@[simp] theorem State.setReg_currentOpcode (x : Nibble) (b : Byte) : (s.setReg x b).currentOpcode = s.currentOpcode := rfl
@[simp] theorem State.setReg_estate (x : Nibble) (b : Byte) : (s.setReg x b).estate = s.estate := rfl
@[simp] theorem State.setReg_rand8In (x : Nibble) (b : Byte) : (s.setReg x b).rand8In = s.rand8In := rfl
@[simp] theorem State.setReg_draws (x : Nibble) (b : Byte) : (s.setReg x b).draws = s.draws := rfl
@[simp] theorem State.setReg_byteAt (x : Nibble) (b : Byte) (addr : Nat) : (s.setReg x b).byteAt addr = s.byteAt addr := rfl
@[simp] theorem State.setReg_keyDown (x : Nibble) (b : Byte) (l : Nibble) : (s.setReg x b).keyDown l = s.keyDown l := rfl
@[simp] theorem State.setReg_fetch (x : Nibble) (b : Byte) : (s.setReg x b).fetch = s.fetch := rfl
@[simp] theorem State.setReg_drawByte (x : Nibble) (b : Byte) : (s.setReg x b).drawByte = s.drawByte := rfl

/-! ### setPc -/

@[simp] theorem State.setPc_params (w : Word) : (s.setPc w).params = s.params := rfl
@[simp] theorem State.setPc_v (w : Word) : (s.setPc w).v = s.v := rfl
@[simp] theorem State.setPc_pc (w : Word) : (s.setPc w).pc = w := rfl
@[simp] theorem State.setPc_index (w : Word) : (s.setPc w).index = s.index := rfl
@[simp] theorem State.setPc_stack (w : Word) : (s.setPc w).stack = s.stack := rfl
@[simp] theorem State.setPc_sp (w : Word) : (s.setPc w).sp = s.sp := rfl
@[simp] theorem State.setPc_dt (w : Word) : (s.setPc w).dt = s.dt := rfl
@[simp] theorem State.setPc_st (w : Word) : (s.setPc w).st = s.st := rfl
@[simp] theorem State.setPc_mem (w : Word) : (s.setPc w).mem = s.mem := rfl
@[simp] theorem State.setPc_disp (w : Word) : (s.setPc w).disp = s.disp := rfl
@[simp] theorem State.setPc_changed (w : Word) : (s.setPc w).changed = s.changed := rfl
@[simp] theorem State.setPc_key (w : Word) : (s.setPc w).key = s.key := rfl
@[simp] theorem State.setPc_currentOpcode (w : Word) : (s.setPc w).currentOpcode = s.currentOpcode := rfl
@[simp] theorem State.setPc_estate (w : Word) : (s.setPc w).estate = s.estate := rfl
@[simp] theorem State.setPc_rand8In (w : Word) : (s.setPc w).rand8In = s.rand8In := rfl
@[simp] theorem State.setPc_draws (w : Word) : (s.setPc w).draws = s.draws := rfl
@[simp] theorem State.setPc_reg (w : Word) (j : Nibble) : (s.setPc w).reg j = s.reg j := rfl
@[simp] theorem State.setPc_byteAt (w : Word) (addr : Nat) : (s.setPc w).byteAt addr = s.byteAt addr := rfl
@[simp] theorem State.setPc_keyDown (w : Word) (l : Nibble) : (s.setPc w).keyDown l = s.keyDown l := rfl
@[simp] theorem State.setPc_drawByte (w : Word) : (s.setPc w).drawByte = s.drawByte := rfl

/-! ### advance -/

@[simp] theorem State.advance_params : (s.advance).params = s.params := rfl
@[simp] theorem State.advance_v : (s.advance).v = s.v := rfl
@[simp] theorem State.advance_pc : (s.advance).pc = s.pc + 2 := rfl
@[simp] theorem State.advance_index : (s.advance).index = s.index := rfl
@[simp] theorem State.advance_stack : (s.advance).stack = s.stack := rfl
@[simp] theorem State.advance_sp : (s.advance).sp = s.sp := rfl
@[simp] theorem State.advance_dt : (s.advance).dt = s.dt := rfl
@[simp] theorem State.advance_st : (s.advance).st = s.st := rfl
@[simp] theorem State.advance_mem : (s.advance).mem = s.mem := rfl
@[simp] theorem State.advance_disp : (s.advance).disp = s.disp := rfl
@[simp] theorem State.advance_changed : (s.advance).changed = s.changed := rfl
@[simp] theorem State.advance_key : (s.advance).key = s.key := rfl
@[simp] theorem State.advance_currentOpcode : (s.advance).currentOpcode = s.currentOpcode := rfl
@[simp] theorem State.advance_estate : (s.advance).estate = s.estate := rfl
@[simp] theorem State.advance_rand8In : (s.advance).rand8In = s.rand8In := rfl
@[simp] theorem State.advance_draws : (s.advance).draws = s.draws := rfl
@[simp] theorem State.advance_reg  (j : Nibble) : (s.advance).reg j = s.reg j := rfl
@[simp] theorem State.advance_byteAt  (addr : Nat) : (s.advance).byteAt addr = s.byteAt addr := rfl
@[simp] theorem State.advance_keyDown  (l : Nibble) : (s.advance).keyDown l = s.keyDown l := rfl
@[simp] theorem State.advance_drawByte  : (s.advance).drawByte = s.drawByte := rfl

/-! ### skipIf -/

@[simp] theorem State.skipIf_params (c : Bool) : (s.skipIf c).params = s.params := rfl
@[simp] theorem State.skipIf_v (c : Bool) : (s.skipIf c).v = s.v := rfl
@[simp] theorem State.skipIf_pc (c : Bool) : (s.skipIf c).pc = s.pc + if c then 4 else 2 := rfl
@[simp] theorem State.skipIf_index (c : Bool) : (s.skipIf c).index = s.index := rfl
@[simp] theorem State.skipIf_stack (c : Bool) : (s.skipIf c).stack = s.stack := rfl
@[simp] theorem State.skipIf_sp (c : Bool) : (s.skipIf c).sp = s.sp := rfl
@[simp] theorem State.skipIf_dt (c : Bool) : (s.skipIf c).dt = s.dt := rfl
@[simp] theorem State.skipIf_st (c : Bool) : (s.skipIf c).st = s.st := rfl
@[simp] theorem State.skipIf_mem (c : Bool) : (s.skipIf c).mem = s.mem := rfl
@[simp] theorem State.skipIf_disp (c : Bool) : (s.skipIf c).disp = s.disp := rfl
@[simp] theorem State.skipIf_changed (c : Bool) : (s.skipIf c).changed = s.changed := rfl
@[simp] theorem State.skipIf_key (c : Bool) : (s.skipIf c).key = s.key := rfl
@[simp] theorem State.skipIf_currentOpcode (c : Bool) : (s.skipIf c).currentOpcode = s.currentOpcode := rfl
@[simp] theorem State.skipIf_estate (c : Bool) : (s.skipIf c).estate = s.estate := rfl
@[simp] theorem State.skipIf_rand8In (c : Bool) : (s.skipIf c).rand8In = s.rand8In := rfl
@[simp] theorem State.skipIf_draws (c : Bool) : (s.skipIf c).draws = s.draws := rfl
@[simp] theorem State.skipIf_reg (c : Bool) (j : Nibble) : (s.skipIf c).reg j = s.reg j := rfl
@[simp] theorem State.skipIf_byteAt (c : Bool) (addr : Nat) : (s.skipIf c).byteAt addr = s.byteAt addr := rfl
@[simp] theorem State.skipIf_keyDown (c : Bool) (l : Nibble) : (s.skipIf c).keyDown l = s.keyDown l := rfl
@[simp] theorem State.skipIf_drawByte (c : Bool) : (s.skipIf c).drawByte = s.drawByte := rfl

/-! ### setIndex -/

@[simp] theorem State.setIndex_params (w : Word) : (s.setIndex w).params = s.params := rfl
@[simp] theorem State.setIndex_v (w : Word) : (s.setIndex w).v = s.v := rfl
@[simp] theorem State.setIndex_pc (w : Word) : (s.setIndex w).pc = s.pc := rfl
@[simp] theorem State.setIndex_index (w : Word) : (s.setIndex w).index = w := rfl
@[simp] theorem State.setIndex_stack (w : Word) : (s.setIndex w).stack = s.stack := rfl
@[simp] theorem State.setIndex_sp (w : Word) : (s.setIndex w).sp = s.sp := rfl
@[simp] theorem State.setIndex_dt (w : Word) : (s.setIndex w).dt = s.dt := rfl
@[simp] theorem State.setIndex_st (w : Word) : (s.setIndex w).st = s.st := rfl
@[simp] theorem State.setIndex_mem (w : Word) : (s.setIndex w).mem = s.mem := rfl
@[simp] theorem State.setIndex_disp (w : Word) : (s.setIndex w).disp = s.disp := rfl
@[simp] theorem State.setIndex_changed (w : Word) : (s.setIndex w).changed = s.changed := rfl
@[simp] theorem State.setIndex_key (w : Word) : (s.setIndex w).key = s.key := rfl
@[simp] theorem State.setIndex_currentOpcode (w : Word) : (s.setIndex w).currentOpcode = s.currentOpcode := rfl
@[simp] theorem State.setIndex_estate (w : Word) : (s.setIndex w).estate = s.estate := rfl
@[simp] theorem State.setIndex_rand8In (w : Word) : (s.setIndex w).rand8In = s.rand8In := rfl
@[simp] theorem State.setIndex_draws (w : Word) : (s.setIndex w).draws = s.draws := rfl
@[simp] theorem State.setIndex_reg (w : Word) (j : Nibble) : (s.setIndex w).reg j = s.reg j := rfl
@[simp] theorem State.setIndex_byteAt (w : Word) (addr : Nat) : (s.setIndex w).byteAt addr = s.byteAt addr := rfl
@[simp] theorem State.setIndex_keyDown (w : Word) (l : Nibble) : (s.setIndex w).keyDown l = s.keyDown l := rfl
@[simp] theorem State.setIndex_fetch (w : Word) : (s.setIndex w).fetch = s.fetch := rfl
@[simp] theorem State.setIndex_drawByte (w : Word) : (s.setIndex w).drawByte = s.drawByte := rfl

/-! ### putByte -/

@[simp] theorem State.putByte_params (a : Nat) (b : Byte) : (s.putByte a b).params = s.params := rfl
@[simp] theorem State.putByte_v (a : Nat) (b : Byte) : (s.putByte a b).v = s.v := rfl
@[simp] theorem State.putByte_pc (a : Nat) (b : Byte) : (s.putByte a b).pc = s.pc := rfl
@[simp] theorem State.putByte_index (a : Nat) (b : Byte) : (s.putByte a b).index = s.index := rfl
@[simp] theorem State.putByte_stack (a : Nat) (b : Byte) : (s.putByte a b).stack = s.stack := rfl
@[simp] theorem State.putByte_sp (a : Nat) (b : Byte) : (s.putByte a b).sp = s.sp := rfl
@[simp] theorem State.putByte_dt (a : Nat) (b : Byte) : (s.putByte a b).dt = s.dt := rfl
@[simp] theorem State.putByte_st (a : Nat) (b : Byte) : (s.putByte a b).st = s.st := rfl
@[simp] theorem State.putByte_mem (a : Nat) (b : Byte) : (s.putByte a b).mem = Memory.write (resetByte s.params) s.mem a b := rfl
@[simp] theorem State.putByte_disp (a : Nat) (b : Byte) : (s.putByte a b).disp = s.disp := rfl
@[simp] theorem State.putByte_changed (a : Nat) (b : Byte) : (s.putByte a b).changed = s.changed := rfl
@[simp] theorem State.putByte_key (a : Nat) (b : Byte) : (s.putByte a b).key = s.key := rfl
@[simp] theorem State.putByte_currentOpcode (a : Nat) (b : Byte) : (s.putByte a b).currentOpcode = s.currentOpcode := rfl
@[simp] theorem State.putByte_estate (a : Nat) (b : Byte) : (s.putByte a b).estate = s.estate := rfl
@[simp] theorem State.putByte_rand8In (a : Nat) (b : Byte) : (s.putByte a b).rand8In = s.rand8In := rfl
@[simp] theorem State.putByte_draws (a : Nat) (b : Byte) : (s.putByte a b).draws = s.draws := rfl
@[simp] theorem State.putByte_reg (a : Nat) (b : Byte) (j : Nibble) : (s.putByte a b).reg j = s.reg j := rfl
@[simp] theorem State.putByte_keyDown (a : Nat) (b : Byte) (l : Nibble) : (s.putByte a b).keyDown l = s.keyDown l := rfl
@[simp] theorem State.putByte_drawByte (a : Nat) (b : Byte) : (s.putByte a b).drawByte = s.drawByte := rfl

/-! ### setKey -/

@[simp] theorem State.setKey_params (k : Nibble) (b : Bool) : (s.setKey k b).params = s.params := rfl
@[simp] theorem State.setKey_v (k : Nibble) (b : Bool) : (s.setKey k b).v = s.v := rfl
@[simp] theorem State.setKey_pc (k : Nibble) (b : Bool) : (s.setKey k b).pc = s.pc := rfl
@[simp] theorem State.setKey_index (k : Nibble) (b : Bool) : (s.setKey k b).index = s.index := rfl
@[simp] theorem State.setKey_stack (k : Nibble) (b : Bool) : (s.setKey k b).stack = s.stack := rfl
@[simp] theorem State.setKey_sp (k : Nibble) (b : Bool) : (s.setKey k b).sp = s.sp := rfl
@[simp] theorem State.setKey_dt (k : Nibble) (b : Bool) : (s.setKey k b).dt = s.dt := rfl
@[simp] theorem State.setKey_st (k : Nibble) (b : Bool) : (s.setKey k b).st = s.st := rfl
@[simp] theorem State.setKey_mem (k : Nibble) (b : Bool) : (s.setKey k b).mem = s.mem := rfl
@[simp] theorem State.setKey_disp (k : Nibble) (b : Bool) : (s.setKey k b).disp = s.disp := rfl
@[simp] theorem State.setKey_changed (k : Nibble) (b : Bool) : (s.setKey k b).changed = s.changed := rfl
@[simp] theorem State.setKey_key (k : Nibble) (b : Bool) : (s.setKey k b).key = s.key.set k.toNat b k.isLt := rfl
@[simp] theorem State.setKey_currentOpcode (k : Nibble) (b : Bool) : (s.setKey k b).currentOpcode = s.currentOpcode := rfl
@[simp] theorem State.setKey_estate (k : Nibble) (b : Bool) : (s.setKey k b).estate = s.estate := rfl
@[simp] theorem State.setKey_rand8In (k : Nibble) (b : Bool) : (s.setKey k b).rand8In = s.rand8In := rfl
@[simp] theorem State.setKey_draws (k : Nibble) (b : Bool) : (s.setKey k b).draws = s.draws := rfl
@[simp] theorem State.setKey_reg (k : Nibble) (b : Bool) (j : Nibble) : (s.setKey k b).reg j = s.reg j := rfl
@[simp] theorem State.setKey_byteAt (k : Nibble) (b : Bool) (a : Nat) : (s.setKey k b).byteAt a = s.byteAt a := rfl
@[simp] theorem State.setKey_fetch (k : Nibble) (b : Bool) : (s.setKey k b).fetch = s.fetch := rfl
@[simp] theorem State.setKey_drawByte (k : Nibble) (b : Bool) : (s.setKey k b).drawByte = s.drawByte := rfl

/-! ### setDt -/

@[simp] theorem State.setDt_params (b : Byte) : (s.setDt b).params = s.params := rfl
@[simp] theorem State.setDt_v (b : Byte) : (s.setDt b).v = s.v := rfl
@[simp] theorem State.setDt_pc (b : Byte) : (s.setDt b).pc = s.pc := rfl
@[simp] theorem State.setDt_index (b : Byte) : (s.setDt b).index = s.index := rfl
@[simp] theorem State.setDt_stack (b : Byte) : (s.setDt b).stack = s.stack := rfl
@[simp] theorem State.setDt_sp (b : Byte) : (s.setDt b).sp = s.sp := rfl
@[simp] theorem State.setDt_dt (b : Byte) : (s.setDt b).dt = b := rfl
@[simp] theorem State.setDt_st (b : Byte) : (s.setDt b).st = s.st := rfl
@[simp] theorem State.setDt_mem (b : Byte) : (s.setDt b).mem = s.mem := rfl
@[simp] theorem State.setDt_disp (b : Byte) : (s.setDt b).disp = s.disp := rfl
@[simp] theorem State.setDt_changed (b : Byte) : (s.setDt b).changed = s.changed := rfl
@[simp] theorem State.setDt_key (b : Byte) : (s.setDt b).key = s.key := rfl
@[simp] theorem State.setDt_currentOpcode (b : Byte) : (s.setDt b).currentOpcode = s.currentOpcode := rfl
@[simp] theorem State.setDt_estate (b : Byte) : (s.setDt b).estate = s.estate := rfl
@[simp] theorem State.setDt_rand8In (b : Byte) : (s.setDt b).rand8In = s.rand8In := rfl
@[simp] theorem State.setDt_draws (b : Byte) : (s.setDt b).draws = s.draws := rfl
@[simp] theorem State.setDt_reg (b : Byte) (j : Nibble) : (s.setDt b).reg j = s.reg j := rfl
@[simp] theorem State.setDt_byteAt (b : Byte) (addr : Nat) : (s.setDt b).byteAt addr = s.byteAt addr := rfl
@[simp] theorem State.setDt_keyDown (b : Byte) (l : Nibble) : (s.setDt b).keyDown l = s.keyDown l := rfl
@[simp] theorem State.setDt_fetch (b : Byte) : (s.setDt b).fetch = s.fetch := rfl
@[simp] theorem State.setDt_drawByte (b : Byte) : (s.setDt b).drawByte = s.drawByte := rfl

/-! ### setSt -/

@[simp] theorem State.setSt_params (b : Byte) : (s.setSt b).params = s.params := rfl
@[simp] theorem State.setSt_v (b : Byte) : (s.setSt b).v = s.v := rfl
@[simp] theorem State.setSt_pc (b : Byte) : (s.setSt b).pc = s.pc := rfl
@[simp] theorem State.setSt_index (b : Byte) : (s.setSt b).index = s.index := rfl
@[simp] theorem State.setSt_stack (b : Byte) : (s.setSt b).stack = s.stack := rfl
@[simp] theorem State.setSt_sp (b : Byte) : (s.setSt b).sp = s.sp := rfl
@[simp] theorem State.setSt_dt (b : Byte) : (s.setSt b).dt = s.dt := rfl
@[simp] theorem State.setSt_st (b : Byte) : (s.setSt b).st = b := rfl
@[simp] theorem State.setSt_mem (b : Byte) : (s.setSt b).mem = s.mem := rfl
@[simp] theorem State.setSt_disp (b : Byte) : (s.setSt b).disp = s.disp := rfl
@[simp] theorem State.setSt_changed (b : Byte) : (s.setSt b).changed = s.changed := rfl
@[simp] theorem State.setSt_key (b : Byte) : (s.setSt b).key = s.key := rfl
@[simp] theorem State.setSt_currentOpcode (b : Byte) : (s.setSt b).currentOpcode = s.currentOpcode := rfl
@[simp] theorem State.setSt_estate (b : Byte) : (s.setSt b).estate = s.estate := rfl
@[simp] theorem State.setSt_rand8In (b : Byte) : (s.setSt b).rand8In = s.rand8In := rfl
@[simp] theorem State.setSt_draws (b : Byte) : (s.setSt b).draws = s.draws := rfl
@[simp] theorem State.setSt_reg (b : Byte) (j : Nibble) : (s.setSt b).reg j = s.reg j := rfl
@[simp] theorem State.setSt_byteAt (b : Byte) (addr : Nat) : (s.setSt b).byteAt addr = s.byteAt addr := rfl
@[simp] theorem State.setSt_keyDown (b : Byte) (l : Nibble) : (s.setSt b).keyDown l = s.keyDown l := rfl
@[simp] theorem State.setSt_fetch (b : Byte) : (s.setSt b).fetch = s.fetch := rfl
@[simp] theorem State.setSt_drawByte (b : Byte) : (s.setSt b).drawByte = s.drawByte := rfl

/-! ### block -/

@[simp] theorem State.block_params (x : Nibble) : (s.block x).params = s.params := rfl
@[simp] theorem State.block_v (x : Nibble) : (s.block x).v = s.v := rfl
@[simp] theorem State.block_pc (x : Nibble) : (s.block x).pc = s.pc := rfl
@[simp] theorem State.block_index (x : Nibble) : (s.block x).index = s.index := rfl
@[simp] theorem State.block_stack (x : Nibble) : (s.block x).stack = s.stack := rfl
@[simp] theorem State.block_sp (x : Nibble) : (s.block x).sp = s.sp := rfl
@[simp] theorem State.block_dt (x : Nibble) : (s.block x).dt = s.dt := rfl
@[simp] theorem State.block_st (x : Nibble) : (s.block x).st = s.st := rfl
@[simp] theorem State.block_mem (x : Nibble) : (s.block x).mem = s.mem := rfl
@[simp] theorem State.block_disp (x : Nibble) : (s.block x).disp = s.disp := rfl
@[simp] theorem State.block_changed (x : Nibble) : (s.block x).changed = s.changed := rfl
@[simp] theorem State.block_key (x : Nibble) : (s.block x).key = s.key := rfl
@[simp] theorem State.block_currentOpcode (x : Nibble) : (s.block x).currentOpcode = s.currentOpcode := rfl
@[simp] theorem State.block_estate (x : Nibble) : (s.block x).estate = .blocked x := rfl
@[simp] theorem State.block_rand8In (x : Nibble) : (s.block x).rand8In = s.rand8In := rfl
@[simp] theorem State.block_draws (x : Nibble) : (s.block x).draws = s.draws := rfl
@[simp] theorem State.block_reg (x : Nibble) (j : Nibble) : (s.block x).reg j = s.reg j := rfl
@[simp] theorem State.block_byteAt (x : Nibble) (addr : Nat) : (s.block x).byteAt addr = s.byteAt addr := rfl
@[simp] theorem State.block_keyDown (x : Nibble) (l : Nibble) : (s.block x).keyDown l = s.keyDown l := rfl
@[simp] theorem State.block_fetch (x : Nibble) : (s.block x).fetch = s.fetch := rfl
@[simp] theorem State.block_drawByte (x : Nibble) : (s.block x).drawByte = s.drawByte := rfl

/-! ### takeDraw -/

@[simp] theorem State.takeDraw_params : (s.takeDraw).params = s.params := rfl
@[simp] theorem State.takeDraw_v : (s.takeDraw).v = s.v := rfl
@[simp] theorem State.takeDraw_pc : (s.takeDraw).pc = s.pc := rfl
@[simp] theorem State.takeDraw_index : (s.takeDraw).index = s.index := rfl
@[simp] theorem State.takeDraw_stack : (s.takeDraw).stack = s.stack := rfl
@[simp] theorem State.takeDraw_sp : (s.takeDraw).sp = s.sp := rfl
@[simp] theorem State.takeDraw_dt : (s.takeDraw).dt = s.dt := rfl
@[simp] theorem State.takeDraw_st : (s.takeDraw).st = s.st := rfl
@[simp] theorem State.takeDraw_mem : (s.takeDraw).mem = s.mem := rfl
@[simp] theorem State.takeDraw_disp : (s.takeDraw).disp = s.disp := rfl
@[simp] theorem State.takeDraw_changed : (s.takeDraw).changed = s.changed := rfl
@[simp] theorem State.takeDraw_key : (s.takeDraw).key = s.key := rfl
@[simp] theorem State.takeDraw_currentOpcode : (s.takeDraw).currentOpcode = s.currentOpcode := rfl
@[simp] theorem State.takeDraw_estate : (s.takeDraw).estate = s.estate := rfl
@[simp] theorem State.takeDraw_rand8In : (s.takeDraw).rand8In = none := rfl
@[simp] theorem State.takeDraw_draws : (s.takeDraw).draws = s.draws + 1 := rfl
@[simp] theorem State.takeDraw_reg  (j : Nibble) : (s.takeDraw).reg j = s.reg j := rfl
@[simp] theorem State.takeDraw_byteAt  (addr : Nat) : (s.takeDraw).byteAt addr = s.byteAt addr := rfl
@[simp] theorem State.takeDraw_keyDown  (l : Nibble) : (s.takeDraw).keyDown l = s.keyDown l := rfl
@[simp] theorem State.takeDraw_fetch  : (s.takeDraw).fetch = s.fetch := rfl

/-! ### takeFault -/

@[simp] theorem State.takeFault_params (c : FaultCause) (o : Option Word) : (s.takeFault c o).params = s.params := rfl
@[simp] theorem State.takeFault_v (c : FaultCause) (o : Option Word) : (s.takeFault c o).v = s.v := rfl
@[simp] theorem State.takeFault_pc (c : FaultCause) (o : Option Word) : (s.takeFault c o).pc = s.pc := rfl
@[simp] theorem State.takeFault_index (c : FaultCause) (o : Option Word) : (s.takeFault c o).index = s.index := rfl
@[simp] theorem State.takeFault_stack (c : FaultCause) (o : Option Word) : (s.takeFault c o).stack = s.stack := rfl
@[simp] theorem State.takeFault_sp (c : FaultCause) (o : Option Word) : (s.takeFault c o).sp = s.sp := rfl
@[simp] theorem State.takeFault_dt (c : FaultCause) (o : Option Word) : (s.takeFault c o).dt = s.dt := rfl
@[simp] theorem State.takeFault_st (c : FaultCause) (o : Option Word) : (s.takeFault c o).st = s.st := rfl
@[simp] theorem State.takeFault_mem (c : FaultCause) (o : Option Word) : (s.takeFault c o).mem = s.mem := rfl
@[simp] theorem State.takeFault_disp (c : FaultCause) (o : Option Word) : (s.takeFault c o).disp = s.disp := rfl
@[simp] theorem State.takeFault_changed (c : FaultCause) (o : Option Word) : (s.takeFault c o).changed = s.changed := rfl
@[simp] theorem State.takeFault_key (c : FaultCause) (o : Option Word) : (s.takeFault c o).key = s.key := rfl
@[simp] theorem State.takeFault_currentOpcode (c : FaultCause) (o : Option Word) : (s.takeFault c o).currentOpcode = s.currentOpcode := rfl
@[simp] theorem State.takeFault_estate (c : FaultCause) (o : Option Word) : (s.takeFault c o).estate = .fault ⟨c, s.pc, o⟩ := rfl
@[simp] theorem State.takeFault_rand8In (c : FaultCause) (o : Option Word) : (s.takeFault c o).rand8In = s.rand8In := rfl
@[simp] theorem State.takeFault_draws (c : FaultCause) (o : Option Word) : (s.takeFault c o).draws = s.draws := rfl
@[simp] theorem State.takeFault_reg (c : FaultCause) (o : Option Word) (j : Nibble) : (s.takeFault c o).reg j = s.reg j := rfl
@[simp] theorem State.takeFault_byteAt (c : FaultCause) (o : Option Word) (addr : Nat) : (s.takeFault c o).byteAt addr = s.byteAt addr := rfl
@[simp] theorem State.takeFault_keyDown (c : FaultCause) (o : Option Word) (l : Nibble) : (s.takeFault c o).keyDown l = s.keyDown l := rfl
@[simp] theorem State.takeFault_fetch (c : FaultCause) (o : Option Word) : (s.takeFault c o).fetch = s.fetch := rfl
@[simp] theorem State.takeFault_drawByte (c : FaultCause) (o : Option Word) : (s.takeFault c o).drawByte = s.drawByte := rfl

/-! ### raise -/

@[simp] theorem State.raise_params (c : FaultCause) : (s.raise c).params = s.params := rfl
@[simp] theorem State.raise_v (c : FaultCause) : (s.raise c).v = s.v := rfl
@[simp] theorem State.raise_pc (c : FaultCause) : (s.raise c).pc = s.pc := rfl
@[simp] theorem State.raise_index (c : FaultCause) : (s.raise c).index = s.index := rfl
@[simp] theorem State.raise_stack (c : FaultCause) : (s.raise c).stack = s.stack := rfl
@[simp] theorem State.raise_sp (c : FaultCause) : (s.raise c).sp = s.sp := rfl
@[simp] theorem State.raise_dt (c : FaultCause) : (s.raise c).dt = s.dt := rfl
@[simp] theorem State.raise_st (c : FaultCause) : (s.raise c).st = s.st := rfl
@[simp] theorem State.raise_mem (c : FaultCause) : (s.raise c).mem = s.mem := rfl
@[simp] theorem State.raise_disp (c : FaultCause) : (s.raise c).disp = s.disp := rfl
@[simp] theorem State.raise_changed (c : FaultCause) : (s.raise c).changed = s.changed := rfl
@[simp] theorem State.raise_key (c : FaultCause) : (s.raise c).key = s.key := rfl
@[simp] theorem State.raise_currentOpcode (c : FaultCause) : (s.raise c).currentOpcode = s.currentOpcode := rfl
@[simp] theorem State.raise_estate (c : FaultCause) : (s.raise c).estate = .fault ⟨c, s.pc, some s.currentOpcode⟩ := rfl
@[simp] theorem State.raise_rand8In (c : FaultCause) : (s.raise c).rand8In = s.rand8In := rfl
@[simp] theorem State.raise_draws (c : FaultCause) : (s.raise c).draws = s.draws := rfl
@[simp] theorem State.raise_reg (c : FaultCause) (j : Nibble) : (s.raise c).reg j = s.reg j := rfl
@[simp] theorem State.raise_byteAt (c : FaultCause) (addr : Nat) : (s.raise c).byteAt addr = s.byteAt addr := rfl
@[simp] theorem State.raise_keyDown (c : FaultCause) (l : Nibble) : (s.raise c).keyDown l = s.keyDown l := rfl
@[simp] theorem State.raise_fetch (c : FaultCause) : (s.raise c).fetch = s.fetch := rfl
@[simp] theorem State.raise_drawByte (c : FaultCause) : (s.raise c).drawByte = s.drawByte := rfl

/-! ### raiseFetch -/

@[simp] theorem State.raiseFetch_params : (s.raiseFetch).params = s.params := rfl
@[simp] theorem State.raiseFetch_v : (s.raiseFetch).v = s.v := rfl
@[simp] theorem State.raiseFetch_pc : (s.raiseFetch).pc = s.pc := rfl
@[simp] theorem State.raiseFetch_index : (s.raiseFetch).index = s.index := rfl
@[simp] theorem State.raiseFetch_stack : (s.raiseFetch).stack = s.stack := rfl
@[simp] theorem State.raiseFetch_sp : (s.raiseFetch).sp = s.sp := rfl
@[simp] theorem State.raiseFetch_dt : (s.raiseFetch).dt = s.dt := rfl
@[simp] theorem State.raiseFetch_st : (s.raiseFetch).st = s.st := rfl
@[simp] theorem State.raiseFetch_mem : (s.raiseFetch).mem = s.mem := rfl
@[simp] theorem State.raiseFetch_disp : (s.raiseFetch).disp = s.disp := rfl
@[simp] theorem State.raiseFetch_changed : (s.raiseFetch).changed = s.changed := rfl
@[simp] theorem State.raiseFetch_key : (s.raiseFetch).key = s.key := rfl
@[simp] theorem State.raiseFetch_currentOpcode : (s.raiseFetch).currentOpcode = s.currentOpcode := rfl
@[simp] theorem State.raiseFetch_estate : (s.raiseFetch).estate = .fault ⟨.memFetch, s.pc, none⟩ := rfl
@[simp] theorem State.raiseFetch_rand8In : (s.raiseFetch).rand8In = s.rand8In := rfl
@[simp] theorem State.raiseFetch_draws : (s.raiseFetch).draws = s.draws := rfl
@[simp] theorem State.raiseFetch_reg  (j : Nibble) : (s.raiseFetch).reg j = s.reg j := rfl
@[simp] theorem State.raiseFetch_byteAt  (addr : Nat) : (s.raiseFetch).byteAt addr = s.byteAt addr := rfl
@[simp] theorem State.raiseFetch_keyDown  (l : Nibble) : (s.raiseFetch).keyDown l = s.keyDown l := rfl
@[simp] theorem State.raiseFetch_fetch  : (s.raiseFetch).fetch = s.fetch := rfl
@[simp] theorem State.raiseFetch_drawByte  : (s.raiseFetch).drawByte = s.drawByte := rfl

/-! ### latch -/

@[simp] theorem State.latch_params (w : Word) : (s.latch w).params = s.params := rfl
@[simp] theorem State.latch_v (w : Word) : (s.latch w).v = s.v := rfl
@[simp] theorem State.latch_pc (w : Word) : (s.latch w).pc = s.pc := rfl
@[simp] theorem State.latch_index (w : Word) : (s.latch w).index = s.index := rfl
@[simp] theorem State.latch_stack (w : Word) : (s.latch w).stack = s.stack := rfl
@[simp] theorem State.latch_sp (w : Word) : (s.latch w).sp = s.sp := rfl
@[simp] theorem State.latch_dt (w : Word) : (s.latch w).dt = s.dt := rfl
@[simp] theorem State.latch_st (w : Word) : (s.latch w).st = s.st := rfl
@[simp] theorem State.latch_mem (w : Word) : (s.latch w).mem = s.mem := rfl
@[simp] theorem State.latch_disp (w : Word) : (s.latch w).disp = s.disp := rfl
@[simp] theorem State.latch_changed (w : Word) : (s.latch w).changed = s.changed := rfl
@[simp] theorem State.latch_key (w : Word) : (s.latch w).key = s.key := rfl
@[simp] theorem State.latch_currentOpcode (w : Word) : (s.latch w).currentOpcode = w := rfl
@[simp] theorem State.latch_estate (w : Word) : (s.latch w).estate = s.estate := rfl
@[simp] theorem State.latch_rand8In (w : Word) : (s.latch w).rand8In = s.rand8In := rfl
@[simp] theorem State.latch_draws (w : Word) : (s.latch w).draws = s.draws := rfl
@[simp] theorem State.latch_reg (w : Word) (j : Nibble) : (s.latch w).reg j = s.reg j := rfl
@[simp] theorem State.latch_byteAt (w : Word) (addr : Nat) : (s.latch w).byteAt addr = s.byteAt addr := rfl
@[simp] theorem State.latch_keyDown (w : Word) (l : Nibble) : (s.latch w).keyDown l = s.keyDown l := rfl
@[simp] theorem State.latch_fetch (w : Word) : (s.latch w).fetch = s.fetch := rfl
@[simp] theorem State.latch_drawByte (w : Word) : (s.latch w).drawByte = s.drawByte := rfl

/-! ### show -/

@[simp] theorem State.show_params (d : Display) : (s.show d).params = s.params := rfl
@[simp] theorem State.show_v (d : Display) : (s.show d).v = s.v := rfl
@[simp] theorem State.show_pc (d : Display) : (s.show d).pc = s.pc := rfl
@[simp] theorem State.show_index (d : Display) : (s.show d).index = s.index := rfl
@[simp] theorem State.show_stack (d : Display) : (s.show d).stack = s.stack := rfl
@[simp] theorem State.show_sp (d : Display) : (s.show d).sp = s.sp := rfl
@[simp] theorem State.show_dt (d : Display) : (s.show d).dt = s.dt := rfl
@[simp] theorem State.show_st (d : Display) : (s.show d).st = s.st := rfl
@[simp] theorem State.show_mem (d : Display) : (s.show d).mem = s.mem := rfl
@[simp] theorem State.show_disp (d : Display) : (s.show d).disp = d := rfl
@[simp] theorem State.show_changed (d : Display) : (s.show d).changed = true := rfl
@[simp] theorem State.show_key (d : Display) : (s.show d).key = s.key := rfl
@[simp] theorem State.show_currentOpcode (d : Display) : (s.show d).currentOpcode = s.currentOpcode := rfl
@[simp] theorem State.show_estate (d : Display) : (s.show d).estate = s.estate := rfl
@[simp] theorem State.show_rand8In (d : Display) : (s.show d).rand8In = s.rand8In := rfl
@[simp] theorem State.show_draws (d : Display) : (s.show d).draws = s.draws := rfl
@[simp] theorem State.show_reg (d : Display) (j : Nibble) : (s.show d).reg j = s.reg j := rfl
@[simp] theorem State.show_byteAt (d : Display) (addr : Nat) : (s.show d).byteAt addr = s.byteAt addr := rfl
@[simp] theorem State.show_keyDown (d : Display) (l : Nibble) : (s.show d).keyDown l = s.keyDown l := rfl
@[simp] theorem State.show_fetch (d : Display) : (s.show d).fetch = s.fetch := rfl
@[simp] theorem State.show_drawByte (d : Display) : (s.show d).drawByte = s.drawByte := rfl

/-! ### withRand8 -/

@[simp] theorem State.withRand8_params (b : Byte) : (s.withRand8 b).params = s.params := rfl
@[simp] theorem State.withRand8_v (b : Byte) : (s.withRand8 b).v = s.v := rfl
@[simp] theorem State.withRand8_pc (b : Byte) : (s.withRand8 b).pc = s.pc := rfl
@[simp] theorem State.withRand8_index (b : Byte) : (s.withRand8 b).index = s.index := rfl
@[simp] theorem State.withRand8_stack (b : Byte) : (s.withRand8 b).stack = s.stack := rfl
@[simp] theorem State.withRand8_sp (b : Byte) : (s.withRand8 b).sp = s.sp := rfl
@[simp] theorem State.withRand8_dt (b : Byte) : (s.withRand8 b).dt = s.dt := rfl
@[simp] theorem State.withRand8_st (b : Byte) : (s.withRand8 b).st = s.st := rfl
@[simp] theorem State.withRand8_mem (b : Byte) : (s.withRand8 b).mem = s.mem := rfl
@[simp] theorem State.withRand8_disp (b : Byte) : (s.withRand8 b).disp = s.disp := rfl
@[simp] theorem State.withRand8_changed (b : Byte) : (s.withRand8 b).changed = s.changed := rfl
@[simp] theorem State.withRand8_key (b : Byte) : (s.withRand8 b).key = s.key := rfl
@[simp] theorem State.withRand8_currentOpcode (b : Byte) : (s.withRand8 b).currentOpcode = s.currentOpcode := rfl
@[simp] theorem State.withRand8_estate (b : Byte) : (s.withRand8 b).estate = s.estate := rfl
@[simp] theorem State.withRand8_rand8In (b : Byte) : (s.withRand8 b).rand8In = some b := rfl
@[simp] theorem State.withRand8_draws (b : Byte) : (s.withRand8 b).draws = s.draws := rfl
@[simp] theorem State.withRand8_reg (b : Byte) (j : Nibble) : (s.withRand8 b).reg j = s.reg j := rfl
@[simp] theorem State.withRand8_byteAt (b : Byte) (addr : Nat) : (s.withRand8 b).byteAt addr = s.byteAt addr := rfl
@[simp] theorem State.withRand8_keyDown (b : Byte) (l : Nibble) : (s.withRand8 b).keyDown l = s.keyDown l := rfl
@[simp] theorem State.withRand8_fetch (b : Byte) : (s.withRand8 b).fetch = s.fetch := rfl

/-! ### dropRand8 -/

@[simp] theorem State.dropRand8_params : (s.dropRand8).params = s.params := rfl
@[simp] theorem State.dropRand8_v : (s.dropRand8).v = s.v := rfl
@[simp] theorem State.dropRand8_pc : (s.dropRand8).pc = s.pc := rfl
@[simp] theorem State.dropRand8_index : (s.dropRand8).index = s.index := rfl
@[simp] theorem State.dropRand8_stack : (s.dropRand8).stack = s.stack := rfl
@[simp] theorem State.dropRand8_sp : (s.dropRand8).sp = s.sp := rfl
@[simp] theorem State.dropRand8_dt : (s.dropRand8).dt = s.dt := rfl
@[simp] theorem State.dropRand8_st : (s.dropRand8).st = s.st := rfl
@[simp] theorem State.dropRand8_mem : (s.dropRand8).mem = s.mem := rfl
@[simp] theorem State.dropRand8_disp : (s.dropRand8).disp = s.disp := rfl
@[simp] theorem State.dropRand8_changed : (s.dropRand8).changed = s.changed := rfl
@[simp] theorem State.dropRand8_key : (s.dropRand8).key = s.key := rfl
@[simp] theorem State.dropRand8_currentOpcode : (s.dropRand8).currentOpcode = s.currentOpcode := rfl
@[simp] theorem State.dropRand8_estate : (s.dropRand8).estate = s.estate := rfl
@[simp] theorem State.dropRand8_rand8In : (s.dropRand8).rand8In = none := rfl
@[simp] theorem State.dropRand8_draws : (s.dropRand8).draws = s.draws := rfl
@[simp] theorem State.dropRand8_reg  (j : Nibble) : (s.dropRand8).reg j = s.reg j := rfl
@[simp] theorem State.dropRand8_byteAt  (addr : Nat) : (s.dropRand8).byteAt addr = s.byteAt addr := rfl
@[simp] theorem State.dropRand8_keyDown  (l : Nibble) : (s.dropRand8).keyDown l = s.keyDown l := rfl
@[simp] theorem State.dropRand8_fetch  : (s.dropRand8).fetch = s.fetch := rfl

/-! ### putBytes -/

@[simp] theorem State.putBytes_params (a : Nat) (bs : List Byte) : (s.putBytes a bs).params = s.params := by
  induction bs generalizing s a with
  | nil => rfl
  | cons b bs ih => simp [State.putBytes, ih]
@[simp] theorem State.putBytes_v (a : Nat) (bs : List Byte) : (s.putBytes a bs).v = s.v := by
  induction bs generalizing s a with
  | nil => rfl
  | cons b bs ih => simp [State.putBytes, ih]
@[simp] theorem State.putBytes_pc (a : Nat) (bs : List Byte) : (s.putBytes a bs).pc = s.pc := by
  induction bs generalizing s a with
  | nil => rfl
  | cons b bs ih => simp [State.putBytes, ih]
@[simp] theorem State.putBytes_index (a : Nat) (bs : List Byte) : (s.putBytes a bs).index = s.index := by
  induction bs generalizing s a with
  | nil => rfl
  | cons b bs ih => simp [State.putBytes, ih]
@[simp] theorem State.putBytes_stack (a : Nat) (bs : List Byte) : (s.putBytes a bs).stack = s.stack := by
  induction bs generalizing s a with
  | nil => rfl
  | cons b bs ih => simp [State.putBytes, ih]
@[simp] theorem State.putBytes_sp (a : Nat) (bs : List Byte) : (s.putBytes a bs).sp = s.sp := by
  induction bs generalizing s a with
  | nil => rfl
  | cons b bs ih => simp [State.putBytes, ih]
@[simp] theorem State.putBytes_dt (a : Nat) (bs : List Byte) : (s.putBytes a bs).dt = s.dt := by
  induction bs generalizing s a with
  | nil => rfl
  | cons b bs ih => simp [State.putBytes, ih]
@[simp] theorem State.putBytes_st (a : Nat) (bs : List Byte) : (s.putBytes a bs).st = s.st := by
  induction bs generalizing s a with
  | nil => rfl
  | cons b bs ih => simp [State.putBytes, ih]
@[simp] theorem State.putBytes_disp (a : Nat) (bs : List Byte) : (s.putBytes a bs).disp = s.disp := by
  induction bs generalizing s a with
  | nil => rfl
  | cons b bs ih => simp [State.putBytes, ih]
@[simp] theorem State.putBytes_changed (a : Nat) (bs : List Byte) : (s.putBytes a bs).changed = s.changed := by
  induction bs generalizing s a with
  | nil => rfl
  | cons b bs ih => simp [State.putBytes, ih]
@[simp] theorem State.putBytes_key (a : Nat) (bs : List Byte) : (s.putBytes a bs).key = s.key := by
  induction bs generalizing s a with
  | nil => rfl
  | cons b bs ih => simp [State.putBytes, ih]
@[simp] theorem State.putBytes_currentOpcode (a : Nat) (bs : List Byte) : (s.putBytes a bs).currentOpcode = s.currentOpcode := by
  induction bs generalizing s a with
  | nil => rfl
  | cons b bs ih => simp [State.putBytes, ih]
@[simp] theorem State.putBytes_estate (a : Nat) (bs : List Byte) : (s.putBytes a bs).estate = s.estate := by
  induction bs generalizing s a with
  | nil => rfl
  | cons b bs ih => simp [State.putBytes, ih]
@[simp] theorem State.putBytes_rand8In (a : Nat) (bs : List Byte) : (s.putBytes a bs).rand8In = s.rand8In := by
  induction bs generalizing s a with
  | nil => rfl
  | cons b bs ih => simp [State.putBytes, ih]
@[simp] theorem State.putBytes_draws (a : Nat) (bs : List Byte) : (s.putBytes a bs).draws = s.draws := by
  induction bs generalizing s a with
  | nil => rfl
  | cons b bs ih => simp [State.putBytes, ih]
@[simp] theorem State.putBytes_reg (a : Nat) (bs : List Byte) (j : Nibble) : (s.putBytes a bs).reg j = s.reg j := by
  simp [State.reg]
@[simp] theorem State.putBytes_keyDown (a : Nat) (bs : List Byte) (l : Nibble) : (s.putBytes a bs).keyDown l = s.keyDown l := by
  simp [State.keyDown]
@[simp] theorem State.putBytes_drawByte (a : Nat) (bs : List Byte) : (s.putBytes a bs).drawByte = s.drawByte := by
  simp [State.drawByte]

/-! ### setRegsFrom -/

@[simp] theorem State.setRegsFrom_params (k : Nat) (bs : List Byte) : (s.setRegsFrom k bs).params = s.params := by
  induction bs generalizing s k with
  | nil => rfl
  | cons b bs ih => simp [State.setRegsFrom, ih]
@[simp] theorem State.setRegsFrom_pc (k : Nat) (bs : List Byte) : (s.setRegsFrom k bs).pc = s.pc := by
  induction bs generalizing s k with
  | nil => rfl
  | cons b bs ih => simp [State.setRegsFrom, ih]
@[simp] theorem State.setRegsFrom_index (k : Nat) (bs : List Byte) : (s.setRegsFrom k bs).index = s.index := by
  induction bs generalizing s k with
  | nil => rfl
  | cons b bs ih => simp [State.setRegsFrom, ih]
@[simp] theorem State.setRegsFrom_stack (k : Nat) (bs : List Byte) : (s.setRegsFrom k bs).stack = s.stack := by
  induction bs generalizing s k with
  | nil => rfl
  | cons b bs ih => simp [State.setRegsFrom, ih]
@[simp] theorem State.setRegsFrom_sp (k : Nat) (bs : List Byte) : (s.setRegsFrom k bs).sp = s.sp := by
  induction bs generalizing s k with
  | nil => rfl
  | cons b bs ih => simp [State.setRegsFrom, ih]
@[simp] theorem State.setRegsFrom_dt (k : Nat) (bs : List Byte) : (s.setRegsFrom k bs).dt = s.dt := by
  induction bs generalizing s k with
  | nil => rfl
  | cons b bs ih => simp [State.setRegsFrom, ih]
@[simp] theorem State.setRegsFrom_st (k : Nat) (bs : List Byte) : (s.setRegsFrom k bs).st = s.st := by
  induction bs generalizing s k with
  | nil => rfl
  | cons b bs ih => simp [State.setRegsFrom, ih]
@[simp] theorem State.setRegsFrom_mem (k : Nat) (bs : List Byte) : (s.setRegsFrom k bs).mem = s.mem := by
  induction bs generalizing s k with
  | nil => rfl
  | cons b bs ih => simp [State.setRegsFrom, ih]
@[simp] theorem State.setRegsFrom_disp (k : Nat) (bs : List Byte) : (s.setRegsFrom k bs).disp = s.disp := by
  induction bs generalizing s k with
  | nil => rfl
  | cons b bs ih => simp [State.setRegsFrom, ih]
@[simp] theorem State.setRegsFrom_changed (k : Nat) (bs : List Byte) : (s.setRegsFrom k bs).changed = s.changed := by
  induction bs generalizing s k with
  | nil => rfl
  | cons b bs ih => simp [State.setRegsFrom, ih]
@[simp] theorem State.setRegsFrom_key (k : Nat) (bs : List Byte) : (s.setRegsFrom k bs).key = s.key := by
  induction bs generalizing s k with
  | nil => rfl
  | cons b bs ih => simp [State.setRegsFrom, ih]
@[simp] theorem State.setRegsFrom_currentOpcode (k : Nat) (bs : List Byte) : (s.setRegsFrom k bs).currentOpcode = s.currentOpcode := by
  induction bs generalizing s k with
  | nil => rfl
  | cons b bs ih => simp [State.setRegsFrom, ih]
@[simp] theorem State.setRegsFrom_estate (k : Nat) (bs : List Byte) : (s.setRegsFrom k bs).estate = s.estate := by
  induction bs generalizing s k with
  | nil => rfl
  | cons b bs ih => simp [State.setRegsFrom, ih]
@[simp] theorem State.setRegsFrom_rand8In (k : Nat) (bs : List Byte) : (s.setRegsFrom k bs).rand8In = s.rand8In := by
  induction bs generalizing s k with
  | nil => rfl
  | cons b bs ih => simp [State.setRegsFrom, ih]
@[simp] theorem State.setRegsFrom_draws (k : Nat) (bs : List Byte) : (s.setRegsFrom k bs).draws = s.draws := by
  induction bs generalizing s k with
  | nil => rfl
  | cons b bs ih => simp [State.setRegsFrom, ih]
@[simp] theorem State.setRegsFrom_byteAt (n : Nat) (bs : List Byte) (addr : Nat) : (s.setRegsFrom n bs).byteAt addr = s.byteAt addr := by
  simp [State.byteAt]
@[simp] theorem State.setRegsFrom_keyDown (n : Nat) (bs : List Byte) (l : Nibble) : (s.setRegsFrom n bs).keyDown l = s.keyDown l := by
  simp [State.keyDown]
@[simp] theorem State.setRegsFrom_fetch (n : Nat) (bs : List Byte) : (s.setRegsFrom n bs).fetch = s.fetch := by
  simp [State.fetch]
@[simp] theorem State.setRegsFrom_drawByte (n : Nat) (bs : List Byte) : (s.setRegsFrom n bs).drawByte = s.drawByte := by
  simp [State.drawByte]

/-! ### commit -/

@[simp] theorem State.commit_params (x : Nibble) (r : Byte × Bool) : (s.commit x r).params = s.params := by
  unfold State.commit; split <;> rfl
@[simp] theorem State.commit_pc (x : Nibble) (r : Byte × Bool) : (s.commit x r).pc = s.pc := by
  unfold State.commit; split <;> rfl
@[simp] theorem State.commit_index (x : Nibble) (r : Byte × Bool) : (s.commit x r).index = s.index := by
  unfold State.commit; split <;> rfl
@[simp] theorem State.commit_stack (x : Nibble) (r : Byte × Bool) : (s.commit x r).stack = s.stack := by
  unfold State.commit; split <;> rfl
@[simp] theorem State.commit_sp (x : Nibble) (r : Byte × Bool) : (s.commit x r).sp = s.sp := by
  unfold State.commit; split <;> rfl
@[simp] theorem State.commit_dt (x : Nibble) (r : Byte × Bool) : (s.commit x r).dt = s.dt := by
  unfold State.commit; split <;> rfl
@[simp] theorem State.commit_st (x : Nibble) (r : Byte × Bool) : (s.commit x r).st = s.st := by
  unfold State.commit; split <;> rfl
@[simp] theorem State.commit_mem (x : Nibble) (r : Byte × Bool) : (s.commit x r).mem = s.mem := by
  unfold State.commit; split <;> rfl
@[simp] theorem State.commit_disp (x : Nibble) (r : Byte × Bool) : (s.commit x r).disp = s.disp := by
  unfold State.commit; split <;> rfl
@[simp] theorem State.commit_changed (x : Nibble) (r : Byte × Bool) : (s.commit x r).changed = s.changed := by
  unfold State.commit; split <;> rfl
@[simp] theorem State.commit_key (x : Nibble) (r : Byte × Bool) : (s.commit x r).key = s.key := by
  unfold State.commit; split <;> rfl
@[simp] theorem State.commit_currentOpcode (x : Nibble) (r : Byte × Bool) : (s.commit x r).currentOpcode = s.currentOpcode := by
  unfold State.commit; split <;> rfl
@[simp] theorem State.commit_estate (x : Nibble) (r : Byte × Bool) : (s.commit x r).estate = s.estate := by
  unfold State.commit; split <;> rfl
@[simp] theorem State.commit_rand8In (x : Nibble) (r : Byte × Bool) : (s.commit x r).rand8In = s.rand8In := by
  unfold State.commit; split <;> rfl
@[simp] theorem State.commit_draws (x : Nibble) (r : Byte × Bool) : (s.commit x r).draws = s.draws := by
  unfold State.commit; split <;> rfl
@[simp] theorem State.commit_byteAt (x : Nibble) (r : Byte × Bool) (addr : Nat) : (s.commit x r).byteAt addr = s.byteAt addr := by
  unfold State.commit; split <;> rfl
@[simp] theorem State.commit_keyDown (x : Nibble) (r : Byte × Bool) (l : Nibble) : (s.commit x r).keyDown l = s.keyDown l := by
  unfold State.commit; split <;> rfl
@[simp] theorem State.commit_fetch (x : Nibble) (r : Byte × Bool) : (s.commit x r).fetch = s.fetch := by
  unfold State.commit; split <;> rfl
@[simp] theorem State.commit_drawByte (x : Nibble) (r : Byte × Bool) : (s.commit x r).drawByte = s.drawByte := by
  unfold State.commit; split <;> rfl

/-! ### advanceIndex -/

@[simp] theorem State.advanceIndex_params (n : Nat) : (s.advanceIndex n).params = s.params := by
  unfold State.advanceIndex; split <;> rfl
@[simp] theorem State.advanceIndex_v (n : Nat) : (s.advanceIndex n).v = s.v := by
  unfold State.advanceIndex; split <;> rfl
@[simp] theorem State.advanceIndex_pc (n : Nat) : (s.advanceIndex n).pc = s.pc := by
  unfold State.advanceIndex; split <;> rfl
@[simp] theorem State.advanceIndex_stack (n : Nat) : (s.advanceIndex n).stack = s.stack := by
  unfold State.advanceIndex; split <;> rfl
@[simp] theorem State.advanceIndex_sp (n : Nat) : (s.advanceIndex n).sp = s.sp := by
  unfold State.advanceIndex; split <;> rfl
@[simp] theorem State.advanceIndex_dt (n : Nat) : (s.advanceIndex n).dt = s.dt := by
  unfold State.advanceIndex; split <;> rfl
@[simp] theorem State.advanceIndex_st (n : Nat) : (s.advanceIndex n).st = s.st := by
  unfold State.advanceIndex; split <;> rfl
@[simp] theorem State.advanceIndex_mem (n : Nat) : (s.advanceIndex n).mem = s.mem := by
  unfold State.advanceIndex; split <;> rfl
@[simp] theorem State.advanceIndex_disp (n : Nat) : (s.advanceIndex n).disp = s.disp := by
  unfold State.advanceIndex; split <;> rfl
@[simp] theorem State.advanceIndex_changed (n : Nat) : (s.advanceIndex n).changed = s.changed := by
  unfold State.advanceIndex; split <;> rfl
@[simp] theorem State.advanceIndex_key (n : Nat) : (s.advanceIndex n).key = s.key := by
  unfold State.advanceIndex; split <;> rfl
@[simp] theorem State.advanceIndex_currentOpcode (n : Nat) : (s.advanceIndex n).currentOpcode = s.currentOpcode := by
  unfold State.advanceIndex; split <;> rfl
@[simp] theorem State.advanceIndex_estate (n : Nat) : (s.advanceIndex n).estate = s.estate := by
  unfold State.advanceIndex; split <;> rfl
@[simp] theorem State.advanceIndex_rand8In (n : Nat) : (s.advanceIndex n).rand8In = s.rand8In := by
  unfold State.advanceIndex; split <;> rfl
@[simp] theorem State.advanceIndex_draws (n : Nat) : (s.advanceIndex n).draws = s.draws := by
  unfold State.advanceIndex; split <;> rfl
@[simp] theorem State.advanceIndex_reg (n : Nat) (j : Nibble) : (s.advanceIndex n).reg j = s.reg j := by
  unfold State.advanceIndex; split <;> rfl
@[simp] theorem State.advanceIndex_byteAt (n : Nat) (addr : Nat) : (s.advanceIndex n).byteAt addr = s.byteAt addr := by
  unfold State.advanceIndex; split <;> rfl
@[simp] theorem State.advanceIndex_keyDown (n : Nat) (l : Nibble) : (s.advanceIndex n).keyDown l = s.keyDown l := by
  unfold State.advanceIndex; split <;> rfl
@[simp] theorem State.advanceIndex_fetch (n : Nat) : (s.advanceIndex n).fetch = s.fetch := by
  unfold State.advanceIndex; split <;> rfl
@[simp] theorem State.advanceIndex_drawByte (n : Nat) : (s.advanceIndex n).drawByte = s.drawByte := by
  unfold State.advanceIndex; split <;> rfl

end Sys2Proof.Machine
end

