-- ==== Sys2Proof/Laws/Ops.lean ====
section
/-! SUPPORT. What the named operations do: registers read back, bytes read back, ranges, the stack, the fetch. -/

namespace Sys2Proof.Machine

variable (s : State)

/-! ### Registers -/

theorem nibble_eq_of_toNat {x y : Nibble} : x = y ↔ x.toNat = y.toNat := BitVec.toNat_inj.symm

@[simp] theorem State.reg_setReg (x j : Nibble) (b : Byte) :
    (s.setReg x b).reg j = if j = x then b else s.reg j := by
  simp only [State.reg, State.setReg, Vector.getElem_set, nibble_eq_of_toNat]
  split_ifs <;> simp_all

theorem State.reg_setReg_ne {x j : Nibble} (b : Byte) (h : j ≠ x) : (s.setReg x b).reg j = s.reg j := by simp [h]

@[simp] theorem State.setReg_setReg_same (x : Nibble) (a b : Byte) : (s.setReg x a).setReg x b = s.setReg x b := by
  simp [State.setReg]

theorem State.setReg_comm {x y : Nibble} (a b : Byte) (h : x ≠ y) :
    (s.setReg x a).setReg y b = (s.setReg y b).setReg x a := by
  have h' : x.toNat ≠ y.toNat := fun e => h (nibble_eq_of_toNat.2 e)
  simp only [State.setReg]
  rw [Vector.set_comm _ _ h']

/-- Two states whose registers read the same have the same register file. -/
theorem State.v_ext {s t : State} (h : ∀ j, s.reg j = t.reg j) : s.v = t.v := by
  apply Vector.ext
  intro k hk
  have := h (BitVec.ofNat 4 k)
  simpa [State.reg, Nat.mod_eq_of_lt hk] using this

/-- What `setRegsFrom` leaves in a register: the byte of the list that falls on it, else the old value. -/
theorem State.reg_setRegsFrom (k : Nat) (bs : List Byte) (hk : k + bs.length ≤ 16) (j : Nibble) :
    (s.setRegsFrom k bs).reg j =
      if h : k ≤ j.toNat ∧ j.toNat - k < bs.length then bs[j.toNat - k]'h.2 else s.reg j := by
  induction bs generalizing s k with
  | nil => simp [State.setRegsFrom]
  | cons b bs ih =>
    simp only [List.length_cons] at hk
    simp only [State.setRegsFrom]
    rw [ih (s.setReg (BitVec.ofNat 4 k) b) (k + 1) (by omega)]
    have hj : j = BitVec.ofNat 4 k ↔ j.toNat = k := by
      rw [nibble_eq_of_toNat]; simp [Nat.mod_eq_of_lt (show k < 16 by omega)]
    by_cases h1 : k + 1 ≤ j.toNat ∧ j.toNat - (k + 1) < bs.length
    · have h2 : j.toNat - k = (j.toNat - (k + 1)) + 1 := by omega
      simp [h1, h2, show k ≤ j.toNat by omega]
    · rw [dif_neg h1, State.reg_setReg]
      by_cases h2 : j.toNat = k
      · simp [h2, hj]
      · rw [if_neg (fun e => h2 (hj.1 e)), dif_neg]
        simp only [List.length_cons]
        omega

@[simp] theorem State.regsUpTo_length (x : Nibble) : (s.regsUpTo x).length = x.toNat + 1 := by
  simp [State.regsUpTo]

theorem State.regsUpTo_getElem (x : Nibble) (k : Nat) (h : k < (s.regsUpTo x).length) :
    (s.regsUpTo x)[k] = s.reg (BitVec.ofNat 4 k) := by
  simp [State.regsUpTo]

/-! ### Keys -/

@[simp] theorem State.keyDown_setKey (k l : Nibble) (b : Bool) :
    (s.setKey k b).keyDown l = if l = k then b else s.keyDown l := by
  simp only [State.keyDown, State.setKey, Vector.getElem_set, nibble_eq_of_toNat]
  split_ifs <;> simp_all

/-! ### Memory -/

/-- The canonical form of a state's memory. -/
abbrev State.memWf (s : State) : Prop := Memory.wf (resetByte s.params) s.mem = true

theorem State.byteAt_putByte_same {a : Nat} {b : Byte} (h : s.memWf) : (s.putByte a b).byteAt a = b :=
  Memory.read_write_same _ h

theorem State.byteAt_putByte_ne {a a' : Nat} (b : Byte) (h : a' ≠ a) : (s.putByte a b).byteAt a' = s.byteAt a' :=
  Memory.read_write_ne _ h

theorem State.putByte_memWf {a : Nat} {b : Byte} (h : s.memWf) (ha : a < 4096) : (s.putByte a b).memWf :=
  Memory.write_wf _ h ha

/-- Addresses outside the bytes stored read as before. -/
theorem State.byteAt_putBytes_outside (a : Nat) (bs : List Byte) (k : Nat) (h : k < a ∨ a + bs.length ≤ k) :
    (s.putBytes a bs).byteAt k = s.byteAt k := by
  induction bs generalizing s a with
  | nil => rfl
  | cons b bs ih =>
    simp only [List.length_cons] at h
    rw [State.putBytes, ih _ _ (by omega), State.byteAt_putByte_ne _ _ (by omega)]

/-- The bytes stored read back. -/
theorem State.byteAt_putBytes_inside (a : Nat) (bs : List Byte) (hs : s.memWf) (ha : a + bs.length ≤ 4096)
    (k : Nat) (h : k < bs.length) : (s.putBytes a bs).byteAt (a + k) = bs[k] := by
  induction bs generalizing s a k with
  | nil => simp at h
  | cons b bs ih =>
    simp only [List.length_cons] at h ha
    rw [State.putBytes]
    cases k with
    | zero =>
      rw [State.byteAt_putBytes_outside _ _ _ _ (by omega)]
      exact State.byteAt_putByte_same s hs
    | succ k =>
      rw [show a + (k + 1) = (a + 1) + k by omega,
        ih _ _ (State.putByte_memWf s hs (by omega)) (by omega) _ (by omega)]
      rfl

/-- Stores inside the address space keep the canonical form. -/
theorem State.putBytes_memWf (a : Nat) (bs : List Byte) (hs : s.memWf) (ha : a + bs.length ≤ 4096) :
    (s.putBytes a bs).memWf := by
  induction bs generalizing s a with
  | nil => exact hs
  | cons b bs ih =>
    simp only [List.length_cons] at ha
    exact ih _ _ (State.putByte_memWf s hs (by omega)) (by omega)

/-- Everything a checked write can do. -/
theorem State.writeBytes_some {a : Nat} {bs : List Byte} (h : bs = [] ∨ a + bs.length ≤ 4096) :
    s.writeBytes a bs = some (s.putBytes a bs) := by
  have : inRange a bs.length = true := inRange_iff.2 (h.imp (fun e => by simp [e]) id)
  simp [State.writeBytes, this]

theorem State.writeBytes_none {a : Nat} {bs : List Byte} (h0 : bs ≠ []) (h : 4096 < a + bs.length) :
    s.writeBytes a bs = none := by
  have : ¬ inRange a bs.length = true := by
    rw [inRange_iff]; simp [h0]; omega
  simp [State.writeBytes, this]

/-- Everything a checked read can do. -/
theorem State.readBytes_some {a n : Nat} (h : n = 0 ∨ a + n ≤ 4096) :
    s.readBytes a n = some ((List.range n).map (fun k => s.byteAt (a + k))) := by
  simp [State.readBytes, inRange_iff.2 h]

theorem State.readBytes_none {a n : Nat} (h0 : 0 < n) (h : 4096 < a + n) : s.readBytes a n = none := by
  have : ¬ inRange a n = true := by rw [inRange_iff]; omega
  simp [State.readBytes, this]

/-! ### Stack -/

theorem State.push_some {w : Word} (h : s.sp.val < 16) :
    s.push w = some { s with stack := s.stack.set s.sp.val w h, sp := ⟨s.sp.val + 1, by omega⟩ } := by
  simp [State.push, h]

theorem State.push_none {w : Word} (h : s.sp.val = 16) : s.push w = none := by
  simp [State.push, h]

theorem State.pop_some (h : 0 < s.sp.val) :
    s.pop = some (s.stack[s.sp.val - 1]'(by omega), { s with sp := ⟨s.sp.val - 1, by omega⟩ }) := by
  simp only [State.pop, h, dite_true]

theorem State.pop_none (h : s.sp.val = 0) : s.pop = none := by
  simp [State.pop, h]

/-! ### Fetch -/

theorem wordOfBytes_toNat (hi lo : Byte) : (wordOfBytes hi lo).toNat = 256 * hi.toNat + lo.toNat := by
  have h := lo.isLt
  simp only [wordOfBytes]
  rw [BitVec.toNat_append, ← Nat.shiftLeft_add_eq_or_of_lt h, Nat.shiftLeft_eq]
  omega

theorem State.fetch_some_iff {w : Word} :
    s.fetch = some w ↔ s.pc.toNat + 1 ≤ 0xFFF ∧
      wordOfBytes (s.byteAt s.pc.toNat) (s.byteAt (s.pc.toNat + 1)) = w := by
  unfold State.fetch
  split_ifs with h <;> simp [h]

theorem State.fetch_pc_le {s : State} {w : Word} (h : s.fetch = some w) : s.pc.toNat ≤ 0xFFE := by
  have := (s.fetch_some_iff.1 h).1; omega

end Sys2Proof.Machine
end

