-- ==== Sys2Proof/Laws/Draw.lean ====
section
/-! SUPPORT. The pixels the draw loop inverts are those Safety's SpriteCovers names. -/

namespace Sys2Proof.Machine

/-- The sprite bytes DXYN reads from I on. -/
def State.spriteRows (s : State) (n : Nibble) : List Byte :=
  (List.range n.toNat).map (fun k => s.byteAt (s.ea + k))

@[simp] theorem State.spriteRows_length (s : State) (n : Nibble) : (s.spriteRows n).length = n.toNat := by
  simp [State.spriteRows]

theorem State.spriteRows_short (s : State) (n : Nibble) : (s.spriteRows n).length ≤ 32 := by
  rw [State.spriteRows_length]; have := n.isLt; omega

theorem mem_lit_iff_spriteCovers (s : State) (x y n : Nibble) (px : Fin 64) (py : Fin 32) :
    (px, py) ∈ lit (s.reg x) (s.reg y) 0 (s.spriteRows n) ↔ SpriteCovers s x y n px py := by
  rw [mem_lit]
  constructor
  · rintro ⟨r, c, hr, hc, e, hb⟩
    rw [State.spriteRows_length] at hr
    obtain ⟨rfl, rfl⟩ := Prod.mk.inj e
    exact ⟨r, c, hr, hc, rfl, by simp [wrapRow], by simpa [State.spriteRows, State.ea] using hb⟩
  · rintro ⟨r, c, hr, hc, hx, hy, hb⟩
    refine ⟨r, c, by simpa using hr, hc, ?_, by simpa [State.spriteRows, State.ea] using hb⟩
    rw [Prod.mk.injEq]
    exact ⟨Fin.ext (by simpa [wrapColumn] using hx), Fin.ext (by simpa [wrapRow] using hy)⟩

/-- DXYN in full where its sprite lies in memory. -/
theorem execDrw_next (x y n : Nibble) (s : State) (h : n.toNat = 0 ∨ s.index.toNat + n.toNat - 1 ≤ 0xFFF) :
    execDrw x y n s = .next (((s.show (drawRows (s.reg x) (s.reg y) 0 (s.spriteRows n) (s.disp, false)).1).setReg 0xF#4
      (flagByte (drawRows (s.reg x) (s.reg y) 0 (s.spriteRows n) (s.disp, false)).2)).advance) := by
  rw [execDrw, State.readBytes_some s (by rw [State.ea]; omega)]
  rfl

/-- The display after a draw. -/
theorem drawn_pixel (x y n : Nibble) (s : State) (px : Fin 64) (py : Fin 32) :
    (drawRows (s.reg x) (s.reg y) 0 (s.spriteRows n) (s.disp, false)).1.pixel px py =
      if (px, py) ∈ lit (s.reg x) (s.reg y) 0 (s.spriteRows n) then !s.disp.pixel px py else s.disp.pixel px py :=
  drawRows_pixel _ _ _ (s.spriteRows_short n) _ _ _ _

/-- The collision flag after a draw. -/
theorem drawn_collision (x y n : Nibble) (s : State) :
    (drawRows (s.reg x) (s.reg y) 0 (s.spriteRows n) (s.disp, false)).2 = true ↔
      ∃ px py, SpriteCovers s x y n px py ∧ s.disp.pixel px py = true := by
  rw [drawRows_collision _ _ _ (s.spriteRows_short n), List.any_eq_true]
  constructor
  · rintro ⟨⟨px, py⟩, hp, hd⟩
    exact ⟨px, py, (mem_lit_iff_spriteCovers s x y n px py).1 hp, hd⟩
  · rintro ⟨px, py, hp, hd⟩
    exact ⟨(px, py), (mem_lit_iff_spriteCovers s x y n px py).2 hp, hd⟩

end Sys2Proof.Machine
end

