-- ==== Sys2Proof/Laws/Flags.lean ====
section
/-! SUPPORT. What the commit of a result and a flag does (spec/42_alu.md R141), and the results as exact arithmetic (R140,
R148 to R152). -/

namespace Sys2Proof.Machine

variable (s : State)

/-- X ≠ 0xF: both orders give the same registers. -/
theorem State.reg_commit_of_ne {x : Nibble} (h : x ≠ 0xF#4) (r : Byte × Bool) (j : Nibble) :
    (s.commit x r).reg j = if j = x then r.1 else if j = 0xF#4 then flagByte r.2 else s.reg j := by
  unfold State.commit
  split
  · simp
  · simp only [State.reg_setReg]; split_ifs <;> simp_all

theorem State.reg_commit_flagThenDest (h : s.params.flagOrder = .flagThenDest) (r : Byte × Bool) (j : Nibble) :
    (s.commit 0xF#4 r).reg j = if j = 0xF#4 then r.1 else s.reg j := by
  simp [State.commit, h]

theorem State.reg_commit_destThenFlag (h : s.params.flagOrder = .destThenFlag) (r : Byte × Bool) (j : Nibble) :
    (s.commit 0xF#4 r).reg j = if j = 0xF#4 then flagByte r.2 else s.reg j := by
  simp [State.commit, h]

/-- Registers other than Vx and VF stay. -/
theorem State.reg_commit_other {x j : Nibble} (h : j ≠ x) (h' : j ≠ 0xF#4) (r : Byte × Bool) :
    (s.commit x r).reg j = s.reg j := by
  unfold State.commit
  split <;> simp [h, h']

/-- A commit changes the register file and nothing else. -/
theorem State.commit_frame (x : Nibble) (r : Byte × Bool) :
    { (s.commit x r).advance with v := s.v, pc := s.pc } = s := by
  unfold State.commit
  split <;> rfl

/-- R156: a flag is 0 or 1. -/
theorem flagByte_cases (f : Bool) : flagByte f = 0 ∨ flagByte f = 1 := by cases f <;> simp [flagByte]

theorem toNat_sub_int (a b : Byte) : ((a - b).toNat : Int) = ((a.toNat : Int) - b.toNat) % 256 := by
  have := a.isLt; have := b.isLt
  rw [BitVec.toNat_sub]; omega

theorem flagByte_bit0 (a : Byte) : (flagByte (a.getLsbD 0)).toNat = a.toNat % 2 := by
  revert a; decide

theorem flagByte_bit7 (a : Byte) : (flagByte (a.getLsbD 7)).toNat = a.toNat / 128 := by
  revert a; decide

end Sys2Proof.Machine
end

