-- ==== Sys2Proof/Laws/Exec.lean ====
section
/-! SUPPORT. What exec can do, said once for all 34 instructions: the fault of spec/60_exceptions.md R261, or the
instruction's effect; and what every effect leaves alone. -/

namespace Sys2Proof.Machine

/-- The key index exists unless the policy rejects it (R230). -/
theorem keyIdx_some {p : KeyIndexPolicy} {b : Byte} (h : ¬(b.toNat ≥ 16 ∧ p = .fault)) : ∃ k, keyIdx p b = some k := by
  unfold keyIdx
  split_ifs with hb
  · exact ⟨_, rfl⟩
  · cases p with
    | mod16 => exact ⟨_, rfl⟩
    | fault => exact absurd ⟨by omega, rfl⟩ h

/-- Where R261's table names a fault, the instruction takes it and does nothing else. -/
theorem exec_of_ownFault {i : Instr} {s : State} {c : FaultCause} (h : ownFault s i = some c) : exec i s = .next (s.raise c) := by
  cases i <;> simp only [ownFault, reduceCtorEq] at h
  case ret ign =>
    split_ifs at h with h0; cases h
    simp [exec, execRet, State.pop_none s h0]
  case call nnn =>
    split_ifs at h with h0; cases h
    simp [exec, execCall, State.push_none s h0]
  case drw x y n =>
    split_ifs at h with h0; cases h
    simp [exec, execDrw, State.readBytes_none s h0.1 (show 4096 < s.ea + n.toNat by simp [State.ea]; omega)]
  case skp x =>
    split_ifs at h with h0; cases h
    simp [exec, execSkp, keyIdx, h0.2, show ¬ (s.reg x).toNat < 16 by omega]
  case sknp x =>
    split_ifs at h with h0; cases h
    simp [exec, execSknp, keyIdx, h0.2, show ¬ (s.reg x).toNat < 16 by omega]
  case ldB x =>
    split_ifs at h with h0; cases h
    simp [exec, execLdB, State.writeBytes_none s (bs := bcdDigits (s.reg x)) (by simp [bcdDigits]) (show 4096 < s.ea + 3 by simp [State.ea]; omega)]
  case ldMemI x =>
    split_ifs at h with h0; cases h
    have hne : s.regsUpTo x ≠ [] := by
      intro e; have := congrArg List.length e; simp at this
    simp [exec, execLdMemI, State.writeBytes_none s hne (show 4096 < s.ea + (s.regsUpTo x).length by simp [State.ea]; omega)]
  case ldIMem x =>
    split_ifs at h with h0; cases h
    simp [exec, execLdIMem, State.readBytes_none s (Nat.succ_pos x.toNat) (show 4096 < s.ea + (x.toNat + 1) by simp [State.ea]; omega)]

/-- What an instruction does where it does not fault. -/
def effect (s : State) : Instr → State
  | .cls _ => (s.show Display.clear).advance
  | .ret _ => match s.pop with | some (w, t) => t.setPc w | none => s
  | .jp nnn => s.setPc (zextAddr nnn)
  | .call nnn => match s.push (s.pc + 2) with | some t => t.setPc (zextAddr nnn) | none => s
  | .seImm x nn => s.skipIf (s.reg x == nn)
  | .sneImm x nn => s.skipIf (s.reg x != nn)
  | .seReg x y _ => s.skipIf (s.reg x == s.reg y)
  | .ldImm x nn => (s.setReg x nn).advance
  | .addImm x nn => (s.setReg x (s.reg x + nn)).advance
  | .ldReg x y => (s.setReg x (s.reg y)).advance
  | .or x y => (s.setReg x (s.reg x ||| s.reg y)).advance
  | .and x y => (s.setReg x (s.reg x &&& s.reg y)).advance
  | .xor x y => (s.setReg x (s.reg x ^^^ s.reg y)).advance
  | .addReg x y => (s.commit x (addResult (s.reg x) (s.reg y))).advance
  | .sub x y => (s.commit x (subResult (s.reg x) (s.reg y))).advance
  | .shr x _ => (s.commit x (shrResult (s.reg x))).advance
  | .subn x y => (s.commit x (subResult (s.reg y) (s.reg x))).advance
  | .shl x _ => (s.commit x (shlResult (s.reg x))).advance
  | .sneReg x y _ => s.skipIf (s.reg x != s.reg y)
  | .ldI nnn => (s.setIndex (zextAddr nnn)).advance
  | .jpV0 nnn => s.setPc (jumpIndexed (s.reg 0) nnn)
  | .rnd x nn => (s.takeDraw.setReg x (s.drawByte &&& nn)).advance
  | .drw x y n => ((s.show (drawRows (s.reg x) (s.reg y) 0 (s.spriteRows n) (s.disp, false)).1).setReg 0xF#4
      (flagByte (drawRows (s.reg x) (s.reg y) 0 (s.spriteRows n) (s.disp, false)).2)).advance
  | .skp x => match keyIdx s.params.keyIndexPolicy (s.reg x) with | some k => s.skipIf (s.keyDown k) | none => s
  | .sknp x => match keyIdx s.params.keyIndexPolicy (s.reg x) with | some k => s.skipIf (!s.keyDown k) | none => s
  | .ldVxDt x => (s.setReg x s.dt).advance
  | .ldVxK x => s.block x
  | .ldDtVx x => (s.setDt (s.reg x)).advance
  | .ldStVx x => (s.setSt (s.reg x)).advance
  | .addI x => (s.setIndex (s.index + zextByte (s.reg x))).advance
  | .ldF x => (s.setIndex (glyphAddress s.params.fontBase (s.reg x))).advance
  | .ldB x => (s.putBytes s.ea (bcdDigits (s.reg x))).advance
  | .ldMemI x => ((s.putBytes s.ea (s.regsUpTo x)).advanceIndex (x.toNat + 1)).advance
  | .ldIMem x => ((s.setRegsFrom 0 ((List.range (x.toNat+1)).map (fun k => s.byteAt (s.ea + k)))).advanceIndex (x.toNat + 1)).advance

/-- Where R261's table names no fault, the instruction has its effect. -/
theorem exec_of_noFault {i : Instr} {s : State} (h : ownFault s i = none) : exec i s = .next (effect s i) := by
  cases i <;> simp only [ownFault] at h <;> try rfl
  case ret ign =>
    split_ifs at h with h0
    simp [exec, execRet, effect, State.pop_some s (by omega)]
  case call nnn =>
    split_ifs at h with h0
    simp [exec, execCall, effect, State.push_some s (show s.sp.val < 16 by omega)]
  case drw x y n =>
    split_ifs at h with h0
    exact execDrw_next x y n s (by omega)
  case skp x =>
    split_ifs at h with h0
    obtain ⟨k, hk⟩ := keyIdx_some h0
    simp only [exec, execSkp, effect, hk]
  case sknp x =>
    split_ifs at h with h0
    obtain ⟨k, hk⟩ := keyIdx_some h0
    simp only [exec, execSknp, effect, hk]
  case ldB x =>
    split_ifs at h with h0
    simp only [exec, execLdB, State.writeBytes_some s (bs := bcdDigits (s.reg x)) (.inr (show s.ea + 3 ≤ 4096 by simp [State.ea]; omega)), effect]
  case ldMemI x =>
    split_ifs at h with h0
    simp only [exec, execLdMemI, State.writeBytes_some s (bs := s.regsUpTo x) (.inr (show s.ea + _ ≤ 4096 by rw [State.regsUpTo_length, State.ea]; omega)), effect]
  case ldIMem x =>
    split_ifs at h with h0
    simp only [exec, execLdIMem, State.readBytes_some s (a := s.ea) (n := x.toNat+1) (.inr (by simp [State.ea]; omega)), effect]


/-- exec answers a next state in every case. -/
theorem exec_next (i : Instr) (s : State) : ∃ t, exec i s = .next t := by
  cases h : ownFault s i with
  | some c => exact ⟨_, exec_of_ownFault h⟩
  | none => exact ⟨_, exec_of_noFault h⟩

/-- The two ways exec answers a next state. -/
theorem exec_cases {i : Instr} {s t : State} (h : exec i s = .next t) :
    (∃ c, ownFault s i = some c ∧ t = s.raise c) ∨ (ownFault s i = none ∧ t = effect s i) := by
  cases hf : ownFault s i with
  | some c =>
    rw [exec_of_ownFault hf] at h
    exact .inl ⟨c, rfl, (Host.Outcome.next.inj h).symm⟩
  | none =>
    rw [exec_of_noFault hf] at h
    exact .inr ⟨rfl, (Host.Outcome.next.inj h).symm⟩

/-! ### The effects of the instructions that look before they write -/

theorem effect_ret {s : State} {ign : Nibble} (h : 0 < s.sp.val) :
    effect s (.ret ign) = { s with pc := s.stack[s.sp.val - 1]'(by omega), sp := ⟨s.sp.val - 1, by omega⟩ } := by
  simp only [effect, State.pop_some s h]; rfl

theorem effect_call {s : State} {nnn : Addr} (h : s.sp.val < 16) :
    effect s (.call nnn) =
      { s with pc := zextAddr nnn, stack := s.stack.set s.sp.val (s.pc + 2) h, sp := ⟨s.sp.val + 1, by omega⟩ } := by
  simp only [effect, State.push_some s h]; rfl

theorem effect_skp_or {s : State} {x : Nibble} :
    effect s (.skp x) = s ∨ ∃ b, effect s (.skp x) = s.skipIf b := by
  simp only [effect]; split
  · exact .inr ⟨_, rfl⟩
  · exact .inl rfl

theorem effect_sknp_or {s : State} {x : Nibble} :
    effect s (.sknp x) = s ∨ ∃ b, effect s (.sknp x) = s.skipIf b := by
  simp only [effect]; split
  · exact .inr ⟨_, rfl⟩
  · exact .inl rfl

/-! ### What no effect changes -/

@[simp] theorem effect_params (s : State) (i : Instr) : (effect s i).params = s.params := by
  cases i <;> simp [effect]
  case ret => split <;> simp_all [State.pop]; rename_i h; obtain ⟨_, h⟩ := h; rw [← h.2]
  case call => split <;> simp_all [State.push]; rename_i h; obtain ⟨_, h⟩ := h; rw [← h]
  case skp => split <;> simp
  case sknp => split <;> simp

@[simp] theorem effect_key (s : State) (i : Instr) : (effect s i).key = s.key := by
  cases i <;> simp [effect]
  case ret => split <;> simp_all [State.pop]; rename_i h; obtain ⟨_, h⟩ := h; rw [← h.2]
  case call => split <;> simp_all [State.push]; rename_i h; obtain ⟨_, h⟩ := h; rw [← h]
  case skp => split <;> simp
  case sknp => split <;> simp

@[simp] theorem effect_currentOpcode (s : State) (i : Instr) : (effect s i).currentOpcode = s.currentOpcode := by
  cases i <;> simp [effect]
  case ret => split <;> simp_all [State.pop]; rename_i h; obtain ⟨_, h⟩ := h; rw [← h.2]
  case call => split <;> simp_all [State.push]; rename_i h; obtain ⟨_, h⟩ := h; rw [← h]
  case skp => split <;> simp
  case sknp => split <;> simp

/-! ### How a skip moves the pc (R110) -/

theorem skipIf_pc_or (s : State) (c : Bool) : (s.skipIf c).pc = s.pc + 4 ∨ (s.skipIf c).pc = s.pc + 2 := by
  cases c
  · exact .inr rfl
  · exact .inl rfl

/-! ### Memory keeps its canonical form -/

theorem effect_memWf {s : State} {i : Instr} (hm : s.memWf) (ho : ownFault s i = none) : (effect s i).memWf := by
  cases i
  case ret =>
    simp only [effect]; split <;> simp_all [State.memWf, State.pop]
    rename_i h; obtain ⟨_, h⟩ := h; rw [← h.2]; exact hm
  case call =>
    simp only [effect]; split <;> simp_all [State.memWf, State.push]
    rename_i h; obtain ⟨_, h⟩ := h; rw [← h]; exact hm
  case skp x => rcases effect_skp_or (s := s) (x := x) with h | ⟨b, h⟩ <;> rw [h] <;> exact hm
  case sknp x => rcases effect_sknp_or (s := s) (x := x) with h | ⟨b, h⟩ <;> rw [h] <;> exact hm
  case ldB x =>
    simp only [ownFault] at ho
    split_ifs at ho with h
    exact s.putBytes_memWf s.ea (bcdDigits (s.reg x)) hm (show s.ea + 3 ≤ 4096 by rw [State.ea]; omega)
  case ldMemI x =>
    simp only [ownFault] at ho
    split_ifs at ho with h
    have := s.putBytes_memWf s.ea (s.regsUpTo x) hm (by rw [State.regsUpTo_length, State.ea]; omega)
    simpa [effect, State.memWf] using this
  all_goals simpa [effect, State.memWf] using hm

end Sys2Proof.Machine
end

