-- ==== Sys2Proof/Laws/Table.lean ====
section
/-! SUPPORT. The masks of the opcode table (spec/30_encoding.md R81) read as fields: what each mask keeps of a word of each
format, and when a masked word equals a pattern. -/

namespace Sys2Proof.Laws

/-! ### A format's word under the masks of the table -/

theorem fAddr_and_mask (op : Nibble) (nnn : Addr) : fAddr op nnn &&& 0xF000 = fAddr op 0 := by
  apply BitVec.eq_of_getLsbD_eq; intro i hi
  simp only [fAddr, BitVec.getLsbD_and, BitVec.getLsbD_append]
  interval_cases i <;> simp [show ∀ n, (0 : BitVec n) = 0#n from fun _ => rfl]

theorem fXnn_and_family (op x : Nibble) (nn : Byte) : fXnn op x nn &&& 0xF000 = fXnn op 0 0 := by
  apply BitVec.eq_of_getLsbD_eq; intro i hi
  simp only [fXnn, BitVec.getLsbD_and, BitVec.getLsbD_append]
  interval_cases i <;> simp [show ∀ n, (0 : BitVec n) = 0#n from fun _ => rfl]

theorem fXnn_and_sub (op x : Nibble) (nn : Byte) : fXnn op x nn &&& 0xF0FF = fXnn op 0 nn := by
  apply BitVec.eq_of_getLsbD_eq; intro i hi
  simp only [fXnn, BitVec.getLsbD_and, BitVec.getLsbD_append]
  interval_cases i <;> simp [show ∀ n, (0 : BitVec n) = 0#n from fun _ => rfl]

theorem fXyn_and_family (op x y n : Nibble) : fXyn op x y n &&& 0xF000 = fXyn op 0 0 0 := by
  rw [fXyn_eq_fXnn, fXnn_and_family]; rfl

theorem fXyn_and_sub (op x y n : Nibble) : fXyn op x y n &&& 0xF00F = fXyn op 0 0 n := by
  apply BitVec.eq_of_getLsbD_eq; intro i hi
  simp only [fXyn, BitVec.getLsbD_and, BitVec.getLsbD_append]
  interval_cases i <;> simp [show ∀ n, (0 : BitVec n) = 0#n from fun _ => rfl]

/-! ### A masked word against a pattern -/

theorem fXnn_inj {a b c d : Nibble} {e f : Byte} : fXnn a c e = fXnn b d f ↔ a = b ∧ c = d ∧ e = f := by
  constructor
  · intro h
    exact ⟨by simpa [opField_fXnn] using congrArg opField h, by simpa [xField_fXnn] using congrArg xField h,
      by simpa [nnField_fXnn] using congrArg nnField h⟩
  · rintro ⟨rfl, rfl, rfl⟩; rfl

theorem family_selects (w : Word) (p : Nibble) : (w &&& 0xF000 == fXnn p 0 0) = decide (opField w = p) := by
  rw [← fXnn_fields w, fXnn_and_family, opField_fXnn, Bool.eq_iff_iff, beq_iff_eq, fXnn_inj]; simp

theorem sub_selects (w : Word) (p : Nibble) (q : Byte) :
    (w &&& 0xF0FF == fXnn p 0 q) = decide (opField w = p ∧ nnField w = q) := by
  rw [← fXnn_fields w, fXnn_and_sub, opField_fXnn, nnField_fXnn, Bool.eq_iff_iff, beq_iff_eq, fXnn_inj]; simp

theorem full_selects (w : Word) (p : Nibble) (q : Byte) :
    (w &&& 0xFFFF == fXnn p 0 q) = decide (opField w = p ∧ xField w = 0 ∧ nnField w = q) := by
  have : w &&& 0xFFFF = w := by
    apply BitVec.eq_of_getLsbD_eq; intro i hi
    interval_cases i <;> simp
  rw [this]
  conv_lhs => rw [← fXnn_fields w]
  rw [Bool.eq_iff_iff, beq_iff_eq, fXnn_inj]; simp

theorem nibble_selects (w : Word) (p q : Nibble) :
    (w &&& 0xF00F == fXyn p 0 0 q) = decide (opField w = p ∧ nField w = q) := by
  rw [← fXyn_fields w, fXyn_and_sub, opField_fXyn, nField_fXyn, Bool.eq_iff_iff, beq_iff_eq, fXyn_eq_fXnn,
    fXyn_eq_fXnn, fXnn_inj]
  constructor
  · rintro ⟨h1, -, h2⟩
    have := congrArg (fun b => nField (fXnn 0 0 b)) h2
    simp only [← fXyn_eq_fXnn, nField_fXyn] at this
    simp [h1, this]
  · intro h; simp at h; simp [h]

end Sys2Proof.Laws
end

