-- ==== Sys2Proof/Laws/PerInstr.lean ====
section
/-! SUPPORT. The family TableRowOf, said of every instruction as syntax: its word selects the row of the opcode table
that bears its mnemonic (spec/30_encoding.md R81, R96). -/

namespace Sys2Proof.Laws

/-- At the default `STRICT_DECODE = false`, the instruction's word selects the table's row of its mnemonic. -/
def TableRowOf.Statement (i : Instr) : Prop :=
  ∃ r ∈ opcodeTable, r.mnemonic = i.mnemonic ∧ r.selects false (encode i) = true

theorem TableRowOf.cls (ign : Nibble) : TableRowOf.Statement (.cls ign) :=
  ⟨⟨"CLS", 0x00E0, 0xF0FF, 0xFFFF⟩, by decide, rfl, beq_iff_eq.2 ((fXnn_and_sub _ _ _).trans (by decide))⟩

theorem TableRowOf.ret (ign : Nibble) : TableRowOf.Statement (.ret ign) :=
  ⟨⟨"RET", 0x00EE, 0xF0FF, 0xFFFF⟩, by decide, rfl, beq_iff_eq.2 ((fXnn_and_sub _ _ _).trans (by decide))⟩

theorem TableRowOf.jp (nnn : Addr) : TableRowOf.Statement (.jp nnn) :=
  ⟨⟨"JP", 0x1000, 0xF000, 0xF000⟩, by decide, rfl, beq_iff_eq.2 ((fAddr_and_mask _ _).trans (by decide))⟩

theorem TableRowOf.call (nnn : Addr) : TableRowOf.Statement (.call nnn) :=
  ⟨⟨"CALL", 0x2000, 0xF000, 0xF000⟩, by decide, rfl, beq_iff_eq.2 ((fAddr_and_mask _ _).trans (by decide))⟩

theorem TableRowOf.seImm (x : Nibble) (nn : Byte) : TableRowOf.Statement (.seImm x nn) :=
  ⟨⟨"SE_imm", 0x3000, 0xF000, 0xF000⟩, by decide, rfl, beq_iff_eq.2 ((fXnn_and_family _ _ _).trans (by decide))⟩

theorem TableRowOf.sneImm (x : Nibble) (nn : Byte) : TableRowOf.Statement (.sneImm x nn) :=
  ⟨⟨"SNE_imm", 0x4000, 0xF000, 0xF000⟩, by decide, rfl, beq_iff_eq.2 ((fXnn_and_family _ _ _).trans (by decide))⟩

theorem TableRowOf.seReg (x y n : Nibble) : TableRowOf.Statement (.seReg x y n) :=
  ⟨⟨"SE_reg", 0x5000, 0xF000, 0xF00F⟩, by decide, rfl, beq_iff_eq.2 ((fXyn_and_family _ _ _ _).trans (by decide))⟩

theorem TableRowOf.ldImm (x : Nibble) (nn : Byte) : TableRowOf.Statement (.ldImm x nn) :=
  ⟨⟨"LD_imm", 0x6000, 0xF000, 0xF000⟩, by decide, rfl, beq_iff_eq.2 ((fXnn_and_family _ _ _).trans (by decide))⟩

theorem TableRowOf.addImm (x : Nibble) (nn : Byte) : TableRowOf.Statement (.addImm x nn) :=
  ⟨⟨"ADD_imm", 0x7000, 0xF000, 0xF000⟩, by decide, rfl, beq_iff_eq.2 ((fXnn_and_family _ _ _).trans (by decide))⟩

theorem TableRowOf.ldReg (x y : Nibble) : TableRowOf.Statement (.ldReg x y) :=
  ⟨⟨"LD_reg", 0x8000, 0xF00F, 0xF00F⟩, by decide, rfl, beq_iff_eq.2 ((fXyn_and_sub _ _ _ _).trans (by decide))⟩

theorem TableRowOf.or (x y : Nibble) : TableRowOf.Statement (.or x y) :=
  ⟨⟨"OR", 0x8001, 0xF00F, 0xF00F⟩, by decide, rfl, beq_iff_eq.2 ((fXyn_and_sub _ _ _ _).trans (by decide))⟩

theorem TableRowOf.and (x y : Nibble) : TableRowOf.Statement (.and x y) :=
  ⟨⟨"AND", 0x8002, 0xF00F, 0xF00F⟩, by decide, rfl, beq_iff_eq.2 ((fXyn_and_sub _ _ _ _).trans (by decide))⟩

theorem TableRowOf.xor (x y : Nibble) : TableRowOf.Statement (.xor x y) :=
  ⟨⟨"XOR", 0x8003, 0xF00F, 0xF00F⟩, by decide, rfl, beq_iff_eq.2 ((fXyn_and_sub _ _ _ _).trans (by decide))⟩

theorem TableRowOf.addReg (x y : Nibble) : TableRowOf.Statement (.addReg x y) :=
  ⟨⟨"ADD_reg", 0x8004, 0xF00F, 0xF00F⟩, by decide, rfl, beq_iff_eq.2 ((fXyn_and_sub _ _ _ _).trans (by decide))⟩

theorem TableRowOf.sub (x y : Nibble) : TableRowOf.Statement (.sub x y) :=
  ⟨⟨"SUB", 0x8005, 0xF00F, 0xF00F⟩, by decide, rfl, beq_iff_eq.2 ((fXyn_and_sub _ _ _ _).trans (by decide))⟩

theorem TableRowOf.shr (x y : Nibble) : TableRowOf.Statement (.shr x y) :=
  ⟨⟨"SHR", 0x8006, 0xF00F, 0xF00F⟩, by decide, rfl, beq_iff_eq.2 ((fXyn_and_sub _ _ _ _).trans (by decide))⟩

theorem TableRowOf.subn (x y : Nibble) : TableRowOf.Statement (.subn x y) :=
  ⟨⟨"SUBN", 0x8007, 0xF00F, 0xF00F⟩, by decide, rfl, beq_iff_eq.2 ((fXyn_and_sub _ _ _ _).trans (by decide))⟩

theorem TableRowOf.shl (x y : Nibble) : TableRowOf.Statement (.shl x y) :=
  ⟨⟨"SHL", 0x800E, 0xF00F, 0xF00F⟩, by decide, rfl, beq_iff_eq.2 ((fXyn_and_sub _ _ _ _).trans (by decide))⟩

theorem TableRowOf.sneReg (x y n : Nibble) : TableRowOf.Statement (.sneReg x y n) :=
  ⟨⟨"SNE_reg", 0x9000, 0xF000, 0xF00F⟩, by decide, rfl, beq_iff_eq.2 ((fXyn_and_family _ _ _ _).trans (by decide))⟩

theorem TableRowOf.ldI (nnn : Addr) : TableRowOf.Statement (.ldI nnn) :=
  ⟨⟨"LD_I", 0xA000, 0xF000, 0xF000⟩, by decide, rfl, beq_iff_eq.2 ((fAddr_and_mask _ _).trans (by decide))⟩

theorem TableRowOf.jpV0 (nnn : Addr) : TableRowOf.Statement (.jpV0 nnn) :=
  ⟨⟨"JP_V0", 0xB000, 0xF000, 0xF000⟩, by decide, rfl, beq_iff_eq.2 ((fAddr_and_mask _ _).trans (by decide))⟩

theorem TableRowOf.rnd (x : Nibble) (nn : Byte) : TableRowOf.Statement (.rnd x nn) :=
  ⟨⟨"RND", 0xC000, 0xF000, 0xF000⟩, by decide, rfl, beq_iff_eq.2 ((fXnn_and_family _ _ _).trans (by decide))⟩

theorem TableRowOf.drw (x y n : Nibble) : TableRowOf.Statement (.drw x y n) :=
  ⟨⟨"DRW", 0xD000, 0xF000, 0xF000⟩, by decide, rfl, beq_iff_eq.2 ((fXyn_and_family _ _ _ _).trans (by decide))⟩

theorem TableRowOf.skp (x : Nibble) : TableRowOf.Statement (.skp x) :=
  ⟨⟨"SKP", 0xE09E, 0xF0FF, 0xF0FF⟩, by decide, rfl, beq_iff_eq.2 ((fXnn_and_sub _ _ _).trans (by decide))⟩

theorem TableRowOf.sknp (x : Nibble) : TableRowOf.Statement (.sknp x) :=
  ⟨⟨"SKNP", 0xE0A1, 0xF0FF, 0xF0FF⟩, by decide, rfl, beq_iff_eq.2 ((fXnn_and_sub _ _ _).trans (by decide))⟩

theorem TableRowOf.ldVxDt (x : Nibble) : TableRowOf.Statement (.ldVxDt x) :=
  ⟨⟨"LD_Vx_DT", 0xF007, 0xF0FF, 0xF0FF⟩, by decide, rfl, beq_iff_eq.2 ((fXnn_and_sub _ _ _).trans (by decide))⟩

theorem TableRowOf.ldVxK (x : Nibble) : TableRowOf.Statement (.ldVxK x) :=
  ⟨⟨"LD_Vx_K", 0xF00A, 0xF0FF, 0xF0FF⟩, by decide, rfl, beq_iff_eq.2 ((fXnn_and_sub _ _ _).trans (by decide))⟩

theorem TableRowOf.ldDtVx (x : Nibble) : TableRowOf.Statement (.ldDtVx x) :=
  ⟨⟨"LD_DT_Vx", 0xF015, 0xF0FF, 0xF0FF⟩, by decide, rfl, beq_iff_eq.2 ((fXnn_and_sub _ _ _).trans (by decide))⟩

theorem TableRowOf.ldStVx (x : Nibble) : TableRowOf.Statement (.ldStVx x) :=
  ⟨⟨"LD_ST_Vx", 0xF018, 0xF0FF, 0xF0FF⟩, by decide, rfl, beq_iff_eq.2 ((fXnn_and_sub _ _ _).trans (by decide))⟩

theorem TableRowOf.addI (x : Nibble) : TableRowOf.Statement (.addI x) :=
  ⟨⟨"ADD_I", 0xF01E, 0xF0FF, 0xF0FF⟩, by decide, rfl, beq_iff_eq.2 ((fXnn_and_sub _ _ _).trans (by decide))⟩

theorem TableRowOf.ldF (x : Nibble) : TableRowOf.Statement (.ldF x) :=
  ⟨⟨"LD_F", 0xF029, 0xF0FF, 0xF0FF⟩, by decide, rfl, beq_iff_eq.2 ((fXnn_and_sub _ _ _).trans (by decide))⟩

theorem TableRowOf.ldB (x : Nibble) : TableRowOf.Statement (.ldB x) :=
  ⟨⟨"LD_B", 0xF033, 0xF0FF, 0xF0FF⟩, by decide, rfl, beq_iff_eq.2 ((fXnn_and_sub _ _ _).trans (by decide))⟩

theorem TableRowOf.ldMemI (x : Nibble) : TableRowOf.Statement (.ldMemI x) :=
  ⟨⟨"LD_MEM_I", 0xF055, 0xF0FF, 0xF0FF⟩, by decide, rfl, beq_iff_eq.2 ((fXnn_and_sub _ _ _).trans (by decide))⟩

theorem TableRowOf.ldIMem (x : Nibble) : TableRowOf.Statement (.ldIMem x) :=
  ⟨⟨"LD_I_MEM", 0xF065, 0xF0FF, 0xF0FF⟩, by decide, rfl, beq_iff_eq.2 ((fXnn_and_sub _ _ _).trans (by decide))⟩

end Sys2Proof.Laws
end

