-- ==== Sys2Proof/Laws/Step.lean ====
section
/-! SUPPORT. What one step does, case by case of spec/30_encoding.md R90. -/

namespace Sys2Proof.Machine

variable {s : State} {w : Word}

theorem step_blocked {x : Nibble} (h : s.estate = .blocked x) : step s = .next s := by
  simp [step, h, State.stepBlocked]

theorem step_faulted {r : FaultRecord} (h : s.estate = .fault r) : step s = .next s := by
  simp [step, h, State.stepFaulted]

theorem step_fetchFault (h : s.estate = .running) (hf : s.fetch = none) : step s = .next s.raiseFetch := by
  simp [step, h, hf]

theorem step_decodeFault {e : DecodeError} (h : s.estate = .running) (hf : s.fetch = some w)
    (hd : decodeWord s.params.strictDecode w = .error e) : step s = .next ((s.latch w).raise .decodeUndefined) := by
  simp [step, h, hf, hd]

/-- The own-fault table reads nothing that fetching changes. -/
@[simp] theorem ownFault_latch (s : State) (w : Word) (i : Instr) : ownFault (s.latch w) i = ownFault s i := by
  cases i <;> rfl

theorem step_ownFault {i : Instr} {c : FaultCause} (h : s.estate = .running) (hf : s.fetch = some w)
    (hd : decodeWord s.params.strictDecode w = .ok i) (ho : ownFault s i = some c) :
    step s = .next ((s.latch w).raise c) := by
  simp [step, h, hf, hd, exec_of_ownFault (s := s.latch w) (i := i) (c := c) (by simpa using ho)]

theorem step_effect {i : Instr} (h : s.estate = .running) (hf : s.fetch = some w)
    (hd : decodeWord s.params.strictDecode w = .ok i) (ho : ownFault s i = none) :
    step s = .next (effect (s.latch w) i) := by
  simp [step, h, hf, hd, exec_of_noFault (s := s.latch w) (i := i) (by simpa using ho)]

/-- The engine state after an effect: only FX0A changes it. -/
theorem effect_estate (s : State) (i : Instr) :
    (effect s i).estate = s.estate ∨ ∃ x, i = .ldVxK x ∧ (effect s i).estate = .blocked x := by
  cases i <;> simp [effect]
  case ret => split <;> simp_all [State.pop]; rename_i h; obtain ⟨_, h⟩ := h; rw [← h.2]
  case call => split <;> simp_all [State.push]; rename_i h; obtain ⟨_, h⟩ := h; rw [← h]
  case skp => split <;> simp
  case sknp => split <;> simp

/-! ### The transaction `step` (spec/60_exceptions.md R270, R272) -/

@[simp] theorem withRand8_params (s : State) (b : Byte) : (s.withRand8 b).params = s.params := rfl
@[simp] theorem withRand8_pc (s : State) (b : Byte) : (s.withRand8 b).pc = s.pc := rfl
@[simp] theorem withRand8_estate (s : State) (b : Byte) : (s.withRand8 b).estate = s.estate := rfl
@[simp] theorem withRand8_rand8In (s : State) (b : Byte) : (s.withRand8 b).rand8In = some b := rfl
@[simp] theorem withRand8_fetch (s : State) (b : Byte) : (s.withRand8 b).fetch = s.fetch := rfl

/-- The own-fault table does not read the host's byte. -/
@[simp] theorem ownFault_withRand8 (s : State) (b : Byte) (i : Instr) : ownFault (s.withRand8 b) i = ownFault s i := by
  cases i <;> rfl

/-- The transaction is the step with the byte as input, and answers the engine state after it. -/
theorem transact_step {b : Byte} {t : State} (h : step (s.withRand8 b) = .next t) :
    transact (.step b) s = .next (t.dropRand8, .stepped t.estate) := by
  simp [transact, doStep, h, State.stepResult]

end Sys2Proof.Machine
end

