-- ==== Sys2Proof/Tests/Slice0.lean ====
section
/-! SUPPORT. Tests by hand: the checks of WellFormed refuse ill-formed terms; words written out from the patterns of
spec/opcode_table.json decode to what they stand for; single steps and transactions give what the vectors of
spec/95_test_vectors.md say (each test names its vectors); and, for each statement with hypotheses, a state and operands
that meet them. -/

namespace Sys2Proof.Tests

open Sys2Proof Sys2Proof.Machine

set_option Elab.async false

/-! ## Helpers -/

/-- The state a step or an instruction answers; every one answers a next state. -/
def after (o : Host.Outcome State Fault Refusal) : State :=
  match o with
  | .next t => t
  | .fault _ => State.reset
  | .refused _ => State.reset

/-- One step of the word `w`, placed at the pc of `s`. -/
def run1 (w : Nat) (s : State) : State := after (step (s.withFetchWord 16 w))

/-- The reset state with some registers set. -/
def regs (l : List (Nibble × Byte)) : State := l.foldl (fun s p => s.setReg p.1 p.2) State.reset

/-- A state at other parameter values. -/
def withParams (s : State) (f : FlagOrder) (a : IndexAdvance) (k : KeyIndexPolicy) (strict : Bool) : State :=
  { s with params := { s.params with flagOrder := f, indexAdvance := a, keyIndexPolicy := k, strictDecode := strict } }

/-- A state with `n` entries of the stack in use. -/
def atDepth (s : State) (n : Fin 17) (top : Word) : State := { s with sp := n, stack := Vector.replicate 16 top }

/-- The coordinates of the pixels that are set. -/
def litPixels (d : Display) : List (Nat × Nat) :=
  (List.range 32).flatMap (fun y => (List.range 64).filterMap (fun x =>
    if d.pixel (Fin.ofNat 64 x) (Fin.ofNat 32 y) then some (x, y) else none))

/-- A display with the given pixels set. -/
def lit (l : List (Fin 64 × Fin 32)) : Display := l.foldl (fun d p => d.flip p.1 p.2) Display.clear

/-- The refusal of a transaction, if it answers one. -/
def refusalOf (o : Host.Outcome (State × Response) Fault Refusal) : Option Refusal :=
  match o with
  | .next _ => none
  | .fault _ => none
  | .refused r => some r

/-- The output of a transaction, if it is not refused. -/
def answerOf (τ : Transaction) (s : State) : Option Response :=
  match transact τ s with
  | .next (_, out) => some out
  | .fault _ => none
  | .refused _ => none

/-- The state a transaction leaves. -/
def afterTx (τ : Transaction) (s : State) : State :=
  match transact τ s with
  | .next (t, _) => t
  | .fault _ => s
  | .refused _ => s

/-! ## WellFormed refuses ill-formed terms -/

theorem test_wf_refuses_cls :
    Instr.wellFormed true (.cls 3) = false ∧ Instr.wellFormed false (.cls 3) = true := by decide

theorem test_wf_refuses_ret :
    Instr.wellFormed true (.ret 3) = false ∧ Instr.wellFormed false (.ret 3) = true := by decide

theorem test_wf_refuses_seReg :
    Instr.wellFormed true (.seReg 1 2 1) = false ∧ Instr.wellFormed false (.seReg 1 2 1) = true := by decide

theorem test_wf_refuses_sneReg :
    Instr.wellFormed true (.sneReg 1 2 7) = false ∧ Instr.wellFormed false (.sneReg 1 2 7) = true := by decide

/-- R10: 0x1B0 + 80 = 0x200. -/
theorem test_wf_refuses_font_past_reserved_area :
    Params.wellFormed { defaultParams with fontBase := 0x1B1 } = false ∧
    Params.wellFormed { defaultParams with fontBase := 0x1B0 } = true := by decide +kernel

/-- R271. -/
theorem test_wf_refuses_long_rom :
    romWellFormed (List.replicate 3585 0) = false ∧ romWellFormed (List.replicate 3584 0) = true := by decide +kernel

/-! ## Decoding words written out from the patterns of the opcode table -/

/-- 00E0, 00EE; DEC-1, DEC-2, DEC-3. -/
theorem test_decode_sys :
    decodeWord false 0b0000000011100000 = .ok (.cls 0) ∧
    decodeWord false 0b0000001111100000 = .ok (.cls 3) ∧
    decodeWord false 0b0000000011101110 = .ok (.ret 0) ∧
    decodeWord false 0b0000101011101110 = .ok (.ret 0xA) ∧
    decodeWord true 0b0000000011100000 = .ok (.cls 0) ∧
    decodeWord true 0b0000001111100000 = .error .strictBits ∧
    decodeWord false 0b0000000100100011 = .error .undefinedSys ∧
    decodeWord false 0b0000000000000000 = .error .undefinedSys := by decide

/-- 1NNN, 2NNN, BNNN, 3XNN, 4XNN. -/
theorem test_decode_flow :
    decodeWord false 0b0001001000110100 = .ok (.jp 0x234) ∧
    decodeWord false 0b0010001100000000 = .ok (.call 0x300) ∧
    decodeWord false 0b1011111111111110 = .ok (.jpV0 0xFFE) ∧
    decodeWord false 0b0011001101000010 = .ok (.seImm 3 0x42) ∧
    decodeWord false 0b0100001101000010 = .ok (.sneImm 3 0x42) := by decide

/-- 5XY0, 9XY0; DEC-7, DEC-8. -/
theorem test_decode_skip_reg :
    decodeWord false 0b0101000100100000 = .ok (.seReg 1 2 0) ∧
    decodeWord false 0b0101000100100001 = .ok (.seReg 1 2 1) ∧
    decodeWord true 0b0101000100100001 = .error .strictBits ∧
    decodeWord false 0b1001000100100000 = .ok (.sneReg 1 2 0) ∧
    decodeWord false 0b1001000100100111 = .ok (.sneReg 1 2 7) ∧
    decodeWord true 0b1001000100100111 = .error .strictBits := by decide

/-- 6XNN, 7XNN, ANNN, CXNN. -/
theorem test_decode_load_random :
    decodeWord false 0b0110101000101011 = .ok (.ldImm 0xA 0x2B) ∧
    decodeWord false 0b0111000100000001 = .ok (.addImm 1 1) ∧
    decodeWord false 0b1010001011110000 = .ok (.ldI 0x2F0) ∧
    decodeWord false 0b1100001100001111 = .ok (.rnd 3 0x0F) := by decide

/-- 8XY0 to 8XY7 and 8XYE. -/
theorem test_decode_alu :
    decodeWord false 0b1000000100100000 = .ok (.ldReg 1 2) ∧
    decodeWord false 0b1000000100100001 = .ok (.or 1 2) ∧
    decodeWord false 0b1000000100100010 = .ok (.and 1 2) ∧
    decodeWord false 0b1000000100100011 = .ok (.xor 1 2) ∧
    decodeWord false 0b1000000100100100 = .ok (.addReg 1 2) ∧
    decodeWord false 0b1000000100100101 = .ok (.sub 1 2) ∧
    decodeWord false 0b1000000100100110 = .ok (.shr 1 2) ∧
    decodeWord false 0b1000000100100111 = .ok (.subn 1 2) ∧
    decodeWord false 0b1000000100101110 = .ok (.shl 1 2) := by decide

/-- DEC-4. -/
theorem test_decode_alu_undefined :
    decodeWord false 0b1000101010111000 = .error .undefinedAlu ∧
    decodeWord false 0b1000101010111001 = .error .undefinedAlu ∧
    decodeWord false 0b1000101010111010 = .error .undefinedAlu ∧
    decodeWord false 0b1000101010111011 = .error .undefinedAlu ∧
    decodeWord false 0b1000101010111100 = .error .undefinedAlu ∧
    decodeWord false 0b1000101010111101 = .error .undefinedAlu ∧
    decodeWord false 0b1000101010111111 = .error .undefinedAlu := by decide

/-- DXYN, EX9E, EXA1; DEC-5. -/
theorem test_decode_draw_keys :
    decodeWord false 0b1101111100010101 = .ok (.drw 0xF 1 5) ∧
    decodeWord false 0b1110000110011110 = .ok (.skp 1) ∧
    decodeWord false 0b1110000110100001 = .ok (.sknp 1) ∧
    decodeWord false 0b1110000110011111 = .error .undefinedKey ∧
    decodeWord false 0b1110000110100010 = .error .undefinedKey ∧
    decodeWord false 0b1110000100000000 = .error .undefinedKey := by decide

/-- FX07 to FX65. -/
theorem test_decode_misc :
    decodeWord false 0b1111010100000111 = .ok (.ldVxDt 5) ∧
    decodeWord false 0b1111010100001010 = .ok (.ldVxK 5) ∧
    decodeWord false 0b1111010100010101 = .ok (.ldDtVx 5) ∧
    decodeWord false 0b1111010100011000 = .ok (.ldStVx 5) ∧
    decodeWord false 0b1111010100011110 = .ok (.addI 5) ∧
    decodeWord false 0b1111010100101001 = .ok (.ldF 5) ∧
    decodeWord false 0b1111010100110011 = .ok (.ldB 5) ∧
    decodeWord false 0b1111010101010101 = .ok (.ldMemI 5) ∧
    decodeWord false 0b1111010101100101 = .ok (.ldIMem 5) := by decide

/-- DEC-6. -/
theorem test_decode_misc_undefined :
    decodeWord false 0b1111000100000000 = .error .undefinedMisc ∧
    decodeWord false 0b1111000100001000 = .error .undefinedMisc ∧
    decodeWord false 0b1111000100110000 = .error .undefinedMisc ∧
    decodeWord false 0b1111000101110101 = .error .undefinedMisc := by decide

theorem test_encode_words :
    [encode (.cls 0), encode (.call 0x300), encode (.seReg 1 2 7), encode (.shl 1 2), encode (.drw 0xF 1 5),
      encode (.sknp 1), encode (.ldIMem 5)] = [0x00E0, 0x2300, 0x5127, 0x812E, 0xDF15, 0xE1A1, 0xF565] := by decide

theorem test_decode_table_word :
    decodeTableWord 16 0x6A2B = some (.ldImm 0xA 0x2B) ∧ decodeTableWord 16 0x03E0 = some (.cls 3) ∧
    decodeTableWord 16 0x0123 = none := by decide

/-- R51, R80: the byte at the lower address is the high byte. -/
theorem test_decode_bytes :
    decodeBytes false [0x6A, 0x2B, 0x00] = .ok (.ldImm 0xA 0x2B, [0x00]) ∧ decodeBytes false [0x6A] = .error .tooShort ∧
    encodeBytes (.ldImm 0xA 0x2B) = [0x6A, 0x2B] := by decide +kernel

/-! ## The step (spec/95_test_vectors.md DEC, spec/20_memory.md) -/

/-- DEC-1. -/
theorem test_step_reset_faults :
    (after (step State.reset)).estate = .fault ⟨.decodeUndefined, 0x200, some 0x0000⟩ ∧
    (after (step State.reset)).pc = 0x200 := by decide +kernel

/-- DEC-9. -/
theorem test_step_fetch_fault :
    (after (step (State.reset.setPc 0xFFF))).estate = .fault ⟨.memFetch, 0xFFF, none⟩ ∧
    (after (step (State.reset.setPc 0xFFF))).currentOpcode = 0x0000 := by decide +kernel

/-- DEC-10. -/
theorem test_step_last_word :
    let t := run1 0x6A01 (State.reset.setPc 0xFFE)
    t.reg 0xA = 1 ∧ t.pc = 0x1000 ∧ t.estate = .running ∧ (after (step t)).estate = .fault ⟨.memFetch, 0x1000, none⟩ := by decide +kernel

/-- DEC-11. -/
theorem test_step_odd_pc :
    let t := run1 0x6107 (State.reset.setPc 0x201)
    t.reg 1 = 7 ∧ t.pc = 0x203 := by decide +kernel

/-! ## Control flow (CF) -/

/-- CF-1. -/
theorem test_jp :
    (run1 0x1234 State.reset).pc = 0x234 := by decide +kernel

/-- CF-7. -/
theorem test_call :
    let t := run1 0x2300 (atDepth State.reset 15 0)
    t.stack[15] = 0x202 ∧ t.stack[14] = 0 ∧ t.sp = 16 ∧ t.pc = 0x300 := by decide +kernel

/-- CF-6. -/
theorem test_call_overflow :
    let t := run1 0x2300 (atDepth State.reset 16 0)
    t.estate = .fault ⟨.stackOverflow, 0x200, some 0x2300⟩ ∧ t.sp = 16 ∧ t.pc = 0x200 ∧ t.stack[15] = 0 := by decide +kernel

/-- CF-4. -/
theorem test_ret :
    let t := run1 0x00EE (atDepth (State.reset.setPc 0x300) 1 0x202)
    t.sp = 0 ∧ t.pc = 0x202 := by decide +kernel

/-- CF-5. -/
theorem test_ret_underflow :
    let t := run1 0x00EE State.reset
    t.estate = .fault ⟨.stackUnderflow, 0x200, some 0x00EE⟩ ∧ t.sp = 0 ∧ t.pc = 0x200 := by decide +kernel

/-- CF-8, CF-9. -/
theorem test_se_imm :
    (run1 0x3342 (regs [(3, 0x42)])).pc = 0x204 ∧ (run1 0x3342 (regs [(3, 0x41)])).pc = 0x202 := by decide +kernel

/-- CF-10, CF-11. -/
theorem test_sne_imm :
    (run1 0x4342 (regs [(3, 0x42)])).pc = 0x202 ∧ (run1 0x4342 State.reset).pc = 0x204 := by decide +kernel

/-- CF-12, DEC-7. -/
theorem test_se_reg :
    (run1 0x5550 State.reset).pc = 0x204 ∧ (run1 0x5121 (regs [(1, 3), (2, 3)])).pc = 0x204 := by decide +kernel

/-- CF-13, DEC-8. -/
theorem test_sne_reg :
    (run1 0x9550 State.reset).pc = 0x202 ∧ (run1 0x9127 (regs [(1, 3), (2, 4)])).pc = 0x204 := by decide +kernel

/-- CF-15, CF-16. -/
theorem test_jp_v0 :
    (run1 0xBFFF (regs [(0, 0xFF)])).pc = 0x10FE ∧ (run1 0xB200 (regs [(0, 1)])).pc = 0x201 := by decide +kernel

/-! ## ALU (ALU, S) -/

/-- ALU-1. -/
theorem test_ld_imm :
    (run1 0x6A2B State.reset).reg 0xA = 0x2B := by decide +kernel

/-- ALU-2. -/
theorem test_add_imm :
    let t := run1 0x7101 (regs [(1, 0xFF), (0xF, 7)])
    t.reg 1 = 0 ∧ t.reg 0xF = 7 := by decide +kernel

/-- ALU-4. -/
theorem test_ld_reg :
    (run1 0x8120 (regs [(2, 0x55)])).reg 1 = 0x55 := by decide +kernel

/-- ALU-5. -/
theorem test_or :
    let t := run1 0x8121 (regs [(1, 0x0F), (2, 0xF0), (0xF, 9)])
    t.reg 1 = 0xFF ∧ t.reg 0xF = 9 := by decide +kernel

/-- ALU-6. -/
theorem test_and :
    (run1 0x8122 (regs [(1, 0x3C), (2, 0x0F)])).reg 1 = 0x0C := by decide +kernel

/-- ALU-7, ALU-8. -/
theorem test_xor :
    (run1 0x8123 (regs [(1, 0xFF), (2, 0x0F)])).reg 1 = 0xF0 ∧ (run1 0x8113 (regs [(1, 0xAB)])).reg 1 = 0 := by decide +kernel

/-- S2, ALU-13. -/
theorem test_add_reg :
    let t := run1 0x8124 (regs [(1, 200), (2, 100)])
    let u := run1 0x81F4 (regs [(1, 3), (0xF, 2)])
    t.reg 1 = 44 ∧ t.reg 0xF = 1 ∧ u.reg 1 = 5 ∧ u.reg 0xF = 0 := by decide +kernel

/-- ALU-12. -/
theorem test_add_reg_into_vf :
    (run1 0x8F14 (regs [(1, 1), (0xF, 0xFF)])).reg 0xF = 0 ∧
    (run1 0x8F14 (withParams (regs [(1, 1), (0xF, 0xFF)]) .destThenFlag .none .fault false)).reg 0xF = 1 := by decide +kernel

/-- S4, S5. -/
theorem test_sub :
    let t := run1 0x8125 (regs [(1, 5), (2, 10)])
    let u := run1 0x8125 (regs [(1, 10), (2, 5)])
    t.reg 1 = 251 ∧ t.reg 0xF = 0 ∧ u.reg 1 = 5 ∧ u.reg 0xF = 1 := by decide +kernel

/-- ALU-14, ALU-16. -/
theorem test_sub_equal_and_into_vf :
    let t := run1 0x8125 (regs [(1, 7), (2, 7), (0xF, 9)])
    t.reg 1 = 0 ∧ t.reg 0xF = 0 ∧ (run1 0x8F15 (regs [(1, 1), (0xF, 0x10)])).reg 0xF = 0x0F := by decide +kernel

/-- ALU-17, ALU-19. -/
theorem test_shr :
    let t := run1 0x8106 (regs [(1, 5)])
    t.reg 1 = 2 ∧ t.reg 0xF = 1 ∧ (run1 0x8FF6 (regs [(0xF, 3)])).reg 0xF = 1 := by decide +kernel

/-- ALU-20, ALU-21. -/
theorem test_subn :
    let t := run1 0x8127 (regs [(1, 5), (2, 10)])
    let u := run1 0x8127 (regs [(1, 10), (2, 5)])
    t.reg 1 = 5 ∧ t.reg 0xF = 1 ∧ u.reg 1 = 0xFB ∧ u.reg 0xF = 0 := by decide +kernel

/-- ALU-23, ALU-24. -/
theorem test_shl :
    let t := run1 0x810E (regs [(1, 0x81)])
    let u := run1 0x810E (regs [(1, 0x7F), (0xF, 5)])
    t.reg 1 = 2 ∧ t.reg 0xF = 1 ∧ u.reg 1 = 0xFE ∧ u.reg 0xF = 0 := by decide +kernel

/-- ALU-26, ALU-28. -/
theorem test_rnd :
    (run1 0xC30F ({ State.reset with rand8In := some 0xA5 })).reg 3 = 0x05 ∧
    (afterTx (.step 0xA5) (State.reset.withFetchWord 16 0xC3FF)).reg 3 = 0xA5 := by decide +kernel

/-- R272; KEY-6, KEY-10, DEC-1. -/
theorem test_step_transaction_answers :
    let s := State.reset.withFetchWord 16 0xF50A
    answerOf (.step 7) (State.reset.withFetchWord 16 0xC3FF) = some (.stepped .running) ∧
    answerOf (.step 7) s = some (.stepped (.blocked 5)) ∧ answerOf (.step 7) (s.block 4) = some (.stepped (.blocked 4)) ∧
    answerOf (.step 7) State.reset = some (.stepped (.fault ⟨.decodeUndefined, 0x200, some 0x0000⟩)) := by decide +kernel

/-! ## Index and memory (MEM) -/

/-- MEM-1. -/
theorem test_ld_i :
    (run1 0xA2F0 State.reset).index = 0x2F0 := by decide +kernel

/-- MEM-3. -/
theorem test_add_i :
    let t := run1 0xF21E ((regs [(2, 1), (0xF, 7)]).setIndex 0xFFFF)
    t.index = 0 ∧ t.reg 0xF = 7 := by decide +kernel

/-- MEM-14, MEM-16. -/
theorem test_ld_f :
    (run1 0xF029 (regs [(0, 5)])).index = 0x019 ∧ (run1 0xF029 (regs [(0, 0xFF)])).index = 0x4FB := by decide +kernel

/-- S8. -/
theorem test_ld_b :
    let t := run1 0xF033 ((regs [(0, 157)]).setIndex 0x300)
    t.byteAt 0x300 = 1 ∧ t.byteAt 0x301 = 5 ∧ t.byteAt 0x302 = 7 ∧ t.byteAt 0x303 = 0 := by decide +kernel

/-- MEM-6, MEM-7. -/
theorem test_ld_b_at_the_end :
    let t := run1 0xF033 ((regs [(0, 9)]).setIndex 0xFFD)
    let u := run1 0xF033 ((regs [(0, 9)]).setIndex 0xFFE)
    t.byteAt 0xFFF = 9 ∧ u.estate = .fault ⟨.memWrite, 0x200, some 0xF033⟩ ∧ u.byteAt 0xFFF = 0 := by decide +kernel

/-- MEM-8. -/
theorem test_ld_mem_i :
    let t := run1 0xF155 ((regs [(0, 1), (1, 2), (2, 3)]).setIndex 0x300)
    t.byteAt 0x300 = 1 ∧ t.byteAt 0x301 = 2 ∧ t.byteAt 0x302 = 0 ∧ t.index = 0x300 ∧
    (run1 0xF155 (withParams (State.reset.setIndex 0x300) .flagThenDest .xPlus1 .fault false)).index = 0x302 := by decide +kernel

/-- MEM-10. -/
theorem test_ld_mem_i_past_the_end :
    let t := run1 0xFF55 ((regs [(0, 1)]).setIndex 0xFF1)
    t.estate = .fault ⟨.memWrite, 0x200, some 0xFF55⟩ ∧ t.byteAt 0xFF1 = 0 := by decide +kernel

/-- MEM-11. -/
theorem test_ld_i_mem :
    let t := run1 0xF165 ((State.reset.setIndex 0x300).putBytes 0x300 [9, 8, 7])
    t.reg 0 = 9 ∧ t.reg 1 = 8 ∧ t.reg 2 = 0 ∧ t.index = 0x300 := by decide +kernel

/-- MEM-12. -/
theorem test_ld_i_mem_past_the_end :
    let t := run1 0xF065 ((regs [(0, 4)]).setIndex 0x1000)
    t.estate = .fault ⟨.memRead, 0x200, some 0xF065⟩ ∧ t.reg 0 = 4 := by decide +kernel

/-! ## Display (DRW) -/

/-- DRW-1. -/
theorem test_cls :
    let t := run1 0x00E0 ({ regs [(0xF, 3)] with disp := lit [(5, 6)] })
    litPixels t.disp = [] ∧ t.changed = true ∧ t.reg 0xF = 3 := by decide +kernel

/-- DRW-2, P1. -/
theorem test_drw_glyph_5 :
    let t := run1 0xD115 (State.reset.setIndex 0x019)
    litPixels t.disp = [(0, 0), (1, 0), (2, 0), (3, 0), (0, 1), (0, 2), (1, 2), (2, 2), (3, 2), (3, 3), (0, 4), (1, 4),
      (2, 4), (3, 4)] ∧ t.reg 0xF = 0 ∧ t.changed = true := by decide +kernel

/-- DRW-3 with the pixel of DRW-6. -/
theorem test_drw_collision_wrap :
    let t := run1 0xD121 (({ regs [(1, 62)] with disp := lit [(0, 0)] }.setIndex 0x300).putBytes 0x300 [0xFF])
    litPixels t.disp = [(1, 0), (2, 0), (3, 0), (4, 0), (5, 0), (62, 0), (63, 0)] ∧ t.reg 0xF = 1 := by decide +kernel

/-! ## Input and timers (KEY, TMR, HOST) -/

/-- KEY-1, KEY-2. -/
theorem test_skp :
    (run1 0xE19E ((regs [(1, 4)]).setKey 4 true)).pc = 0x204 ∧ (run1 0xE19E (regs [(1, 4)])).pc = 0x202 := by decide +kernel

/-- KEY-5. -/
theorem test_skp_key_index :
    (run1 0xE19E ((regs [(1, 0x14)]).setKey 4 true)).estate = .fault ⟨.memKey, 0x200, some 0xE19E⟩ ∧
    (run1 0xE19E (withParams ((regs [(1, 0x14)]).setKey 4 true) .flagThenDest .none .mod16 false)).pc = 0x204 := by decide +kernel

/-- KEY-3, KEY-4. -/
theorem test_sknp :
    (run1 0xE1A1 ((regs [(1, 4)]).setKey 4 true)).pc = 0x202 ∧ (run1 0xE1A1 (regs [(1, 4)])).pc = 0x204 := by decide +kernel

/-- TMR-3. -/
theorem test_ld_vx_dt :
    (run1 0xF307 (State.reset.setDt 0x3C)).reg 3 = 0x3C := by decide +kernel

/-- KEY-6. -/
theorem test_ld_vx_k :
    let t := run1 0xF50A State.reset
    t.estate = .blocked 5 ∧ t.pc = 0x200 ∧ t.stepResult = .blocked 5 := by decide +kernel

/-- KEY-7. -/
theorem test_press_completes :
    let t := afterTx (.press 9) (run1 0xF50A State.reset)
    t.keyDown 9 = true ∧ t.reg 5 = 9 ∧ t.pc = 0x202 ∧ t.estate = .running := by decide +kernel

/-- KEY-8, KEY-9, KEY-10. -/
theorem test_press_held_release_step :
    let s := (run1 0xF50A State.reset).setKey 9 true
    afterTx (.press 9) s = s ∧ (afterTx (.release 3) s).estate = .blocked 5 ∧ after (step s) = s := by decide +kernel

/-- TMR-4. -/
theorem test_ld_dt_vx :
    let t := run1 0xF215 (regs [(2, 60)])
    t.dt = 60 ∧ t.st = 0 := by decide +kernel

/-- TMR-5. -/
theorem test_ld_st_vx :
    let t := run1 0xF218 (regs [(2, 10)])
    t.st = 10 ∧ t.dt = 0 := by decide +kernel

/-- TMR-6. -/
theorem test_tick :
    let t := afterTx .tick ((State.reset.block 0).setDt 5)
    t.dt = 4 ∧ t.st = 0 ∧ t.estate = .blocked 0 := by decide +kernel

/-- HOST-1. -/
theorem test_display_read :
    let s := { State.reset with changed := true, disp := lit [(3, 4)] }
    transact .displayRead s = .next (s.doDisplayRead, .display (lit [(3, 4)]) true) ∧ s.doDisplayRead.changed = false := by exact ⟨rfl, rfl⟩

/-- R271. -/
theorem test_load :
    let t := afterTx (.load [0x60, 0x05, 0xF0]) State.reset
    t.byteAt 0x1FF = 0 ∧ t.byteAt 0x200 = 0x60 ∧ t.byteAt 0x202 = 0xF0 ∧ t.byteAt 0x203 = 0 := by decide +kernel

/-- R271, D24. -/
theorem test_load_later_is_refused :
    refusalOf (transact (.load [0x60]) (run1 0x1234 State.reset)) = some .loadAfterStart := by decide +kernel

/-- R300. -/
theorem test_reset :
    let t := afterTx .reset (run1 0x00EE (regs [(4, 4)]))
    t = State.reset := by decide +kernel

/-! ## Witnesses: states and operands that meet the hypotheses of the statements -/

/-- DecodeOfEncodeIsTheInstruction: both settings, an operand at its greatest value. -/
theorem test_witness_decode_of_encode : Instr.wellFormed true (.seReg 0xF 0xF 0) = true ∧
    Instr.wellFormed false (.seReg 0xF 0xF 0xF) = true ∧ Instr.wellFormed true (.jp 0xFFF) = true := by decide

/-- EncodeOfDecodeIsTheWord and DecoderAgreesWithOpcodeTable: a word that decodes and one that does not. -/
theorem test_witness_decoded_words : decodeWord false 0x03E0 = .ok (.cls 3) ∧ decodeWord true 0xFF65 = .ok (.ldIMem 0xF) ∧
    decodeWord true 0x03E0 = .error .strictBits ∧ decodeWord false 0xFFFF = .error .undefinedMisc := by decide

/-- RejectedWordsAreTheListedOnes: a rejected word of each clause, next to words that decode. -/
theorem test_witness_rejected_words :
    ([0x00E1, 0x8008, 0xE09D, 0xF066].all fun w => (decodeWord false w).toOption == none) ∧
    ([0x01E0, 0x5001, 0x9001].all fun w => (decodeWord true w).toOption == none && (decodeWord false w).toOption != none) ∧
    ([0x00E0, 0x8007, 0xE09E, 0xF065].all fun w => (decodeWord true w).toOption != none) := by decide

/-- FetchReadsABigEndianWordAtAnyAddress: the last address with a word, and the first without. -/
theorem test_witness_fetch : (State.reset.setPc 0xFFE).pc.toNat + 1 ≤ 0xFFF ∧ 0xFFF < (State.reset.setPc 0xFFF).pc.toNat + 1 := by
  decide +kernel

/-- StepRunsTheDecodedInstruction. -/
theorem test_witness_step_runs : let s := State.reset.withFetchWord 16 0x6A2B
    s.estate = .running ∧ s.fetch = some 0x6A2B ∧ decodeWord s.params.strictDecode 0x6A2B = .ok (.ldImm 0xA 0x2B) := by
  decide +kernel

/-- StepWhileBlockedOrFaultedChangesNothing. -/
theorem test_witness_not_running : (State.reset.block 5).estate ≠ .running ∧ (State.reset.raise .memRead).estate ≠ .running := by
  decide +kernel

/-- FaultsArePreciseAndExactlyAsTabled: a state for each row of R261, and one without a fault. -/
theorem test_witness_tabled_faults :
    (State.reset.setPc 0xFFF).tabledFault = some .memFetch ∧ State.reset.tabledFault = some .decodeUndefined ∧
    (State.reset.withFetchWord 16 0x00EE).tabledFault = some .stackUnderflow ∧
    ((atDepth State.reset 16 0).withFetchWord 16 0x2300).tabledFault = some .stackOverflow ∧
    ((State.reset.setIndex 0xFF1).withFetchWord 16 0xFF65).tabledFault = some .memRead ∧
    ((State.reset.setIndex 0xFF1).withFetchWord 16 0xFF55).tabledFault = some .memWrite ∧
    ((regs [(1, 16)]).withFetchWord 16 0xE19E).tabledFault = some .memKey ∧
    (State.reset.withFetchWord 16 0x6A2B).tabledFault = none := by decide +kernel

/-- CallPushesTheReturnAddress, ReturnPopsThePc, CallThenReturnRestoresPcAndSp: the ends of the stack's range. -/
theorem test_witness_stack_depths : (atDepth State.reset 15 0).sp.val < 16 ∧ (atDepth State.reset 16 0).sp.val = 16 ∧
    0 < (atDepth State.reset 1 0).sp.val ∧ State.reset.sp.val = 0 := by decide +kernel

/-- CallThenReturnRestoresPcAndSp: a state after the CALL and other instructions. -/
theorem test_witness_call_then_return : let t := after (exec (.call 0x300) (atDepth State.reset 15 0))
    let u := (t.setReg 1 5).advance
    u.sp = t.sp ∧ ∀ (k : Nat) (hk : k < 16), k < t.sp.val → u.stack[k] = t.stack[k] := ⟨rfl, fun _ _ _ => rfl⟩

/-- SkipsComparingAnImmediate, SkipsComparingRegisters: equal, unequal, and undecoded bits not 0. -/
theorem test_witness_skips : let s := regs [(3, 0x42), (4, 0x42)]
    s.reg 3 = 0x42 ∧ s.reg 3 ≠ 0x41 ∧ s.reg 3 = s.reg 4 ∧ s.reg 3 ≠ s.reg 5 ∧ (1 : Nibble) ≠ 0 := by decide +kernel

/-- AddRegistersSetsCarry, AddIntoVfUnderDestThenFlagLeavesTheCarry, SubtractionsSetTheStrictFlag,
ShiftsSetTheBitShiftedOut: X below 0xF and X = 0xF under both orders. -/
theorem test_witness_flag_orders : (0xE : Nibble) ≠ 0xF#4 ∧ State.reset.params.flagOrder = .flagThenDest ∧
    (withParams State.reset .destThenFlag .none .fault false).params.flagOrder = .destThenFlag := by decide +kernel

/-- RandomByteIsAFreeInputUnderTheMask: the host names a byte. -/
theorem test_witness_rand8 : (State.reset.withRand8 0xA5).rand8In = some 0xA5 := rfl

/-- RandomByteIsAFreeInputUnderTheMask: a running state whose next word is a CXNN. -/
theorem test_witness_rnd_step : let s := State.reset.withFetchWord 16 0xC30F
    s.estate = .running ∧ s.fetch = some 0xC30F ∧ decodeWord s.params.strictDecode 0xC30F = .ok (.rnd 3 0x0F) := by
  decide +kernel

/-- StepTransactionAnswersTheEngineState: not running; running with a fault, with FX0A, and with another instruction. -/
theorem test_witness_step_transaction : let k := State.reset.withFetchWord 16 0xF50A
    let s := State.reset.withFetchWord 16 0x6A2B
    (State.reset.block 5).estate ≠ .running ∧ State.reset.tabledFault = some .decodeUndefined ∧
    k.estate = .running ∧ k.fetch = some 0xF50A ∧ decodeWord k.params.strictDecode 0xF50A = .ok (.ldVxK 5) ∧
    ownFault k (.ldVxK 5) = none ∧ s.estate = .running ∧ s.fetch = some 0x6A2B ∧
    decodeWord s.params.strictDecode 0x6A2B = .ok (.ldImm 0xA 0x2B) ∧ ownFault s (.ldImm 0xA 0x2B) = none := by
  decide +kernel

/-- StepTransactionAnswersTheEngineState: an instruction that is no FX0A. -/
theorem test_witness_no_key_wait : ∀ x, Instr.ldImm 0xA 0x2B ≠ .ldVxK x := fun _ h => by cases h

/-- BcdStoresThreeDigits: both clauses where they meet, in canonical memory that lists a cell. -/
theorem test_witness_bcd : let s := (State.reset.setIndex 0xFFD).putByte 0x300 7
    Memory.wf (resetByte s.params) s.mem = true ∧ s.mem ≠ [] ∧ s.index.toNat + 2 ≤ 0xFFF ∧
    0xFFF < (s.setIndex 0xFFE).index.toNat + 2 := by decide +kernel

/-- DumpStoresV0ToVx, LoadFillsV0ToVx: both clauses where they meet, and both settings of the index advance. -/
theorem test_witness_dump_load : let s := State.reset.setIndex 0xFF0
    Memory.wf (resetByte s.params) s.mem = true ∧ s.index.toNat + (0xF : Nibble).toNat ≤ 0xFFF ∧
    0xFFF < (s.setIndex 0xFF1).index.toNat + (0xF : Nibble).toNat ∧ s.params.indexAdvance = .none ∧
    (withParams s .flagThenDest .xPlus1 .fault false).params.indexAdvance = .xPlus1 := by decide +kernel

/-- LoadUndoesDump: the state after the dump with other registers and I put back. -/
theorem test_witness_load_undoes_dump : let s := (regs [(0, 1), (1, 2)]).setIndex 0xFFE
    let t := after (exec (.ldMemI 1) s)
    let u := (t.setReg 0 9).setIndex s.index
    Memory.wf (resetByte s.params) s.mem = true ∧ s.index.toNat + (1 : Nibble).toNat ≤ 0xFFF ∧ u.index = s.index ∧
    SameMemory t u := ⟨by decide +kernel, by decide +kernel, rfl, fun _ => rfl⟩

/-- FetchSeesAStoreAtOnce: the word at the last two addresses. -/
theorem test_witness_fetch_sees_store : let s := (regs [(0, 0x6A), (1, 0x2B)]).setIndex 0xFFE
    let t := after (exec (.ldMemI 1) s)
    Memory.wf (resetByte s.params) s.mem = true ∧ s.index.toNat + (1 : Nibble).toNat ≤ 0xFFF ∧
    (0 : Nibble).toNat < (1 : Nibble).toNat ∧ SameMemory t (t.setPc 0xFFE) ∧
    (t.setPc 0xFFE).pc.toNat = s.index.toNat + (0 : Nibble).toNat :=
  ⟨by decide +kernel, by decide +kernel, by decide, fun _ => rfl, by decide +kernel⟩

/-- DrawInvertsExactlyTheCoveredPixels, DrawFlagIsTheCollision: no row, one row at the last address, and one row more. -/
theorem test_witness_draw_rows : let s := State.reset.setIndex 0xFFF
    (0 : Nibble).toNat = 0 ∧ s.index.toNat + (1 : Nibble).toNat - 1 ≤ 0xFFF ∧
    0 < (2 : Nibble).toNat ∧ 0xFFF < s.index.toNat + (2 : Nibble).toNat - 1 := by decide +kernel

/-- DrawFlagIsTheCollision: the first pixel of glyph 0 at the origin is covered, and set or clear before the draw. -/
theorem test_witness_draw_flag : let s := ({ State.reset with disp := lit [(0, 0)] } : State)
    SpriteCovers s 1 1 1 0 0 ∧ s.disp.pixel 0 0 = true ∧ SpriteCovers State.reset 1 1 1 0 0 ∧
    ∀ px py, SpriteCovers State.reset 1 1 1 px py → State.reset.disp.pixel px py = false :=
  ⟨⟨0, 0, by decide, by decide, by decide +kernel, by decide +kernel, by decide +kernel⟩, by decide +kernel,
    ⟨0, 0, by decide, by decide, by decide +kernel, by decide +kernel, by decide +kernel⟩,
    fun px py _ => (by decide +kernel : ∀ px py, State.reset.disp.pixel px py = false) px py⟩

/-- DrawInvertsExactlyTheCoveredPixels: a pixel that is not covered, to the right of the sprite. -/
theorem test_witness_not_covered : ¬ SpriteCovers State.reset 1 1 1 8 0 := by
  rintro ⟨r, c, -, hc, hx, -⟩
  rw [show (State.reset.reg 1).toNat = 0 from rfl] at hx
  have : ((8 : Fin 64) : Nat) = 8 := rfl
  omega

/-- DrawingTwiceRestoresTheDisplay: the state after the first draw with other components changed. -/
theorem test_witness_draw_twice : let s := State.reset.setIndex 0x019
    let t := after (exec (.drw 1 1 5) s)
    let u := t.setDt 9
    s.index.toNat + (5 : Nibble).toNat - 1 ≤ 0xFFF ∧ u.disp = t.disp ∧ u.index = s.index ∧ u.reg 1 = s.reg 1 ∧
    SameMemory s u := ⟨by decide +kernel, rfl, rfl, by decide +kernel, fun _ => rfl⟩

/-- KeySkipsFollowTheKey: the last key index, and the first value that is none, under both policies. -/
theorem test_witness_key_index : let s := regs [(1, 15), (2, 16)]
    let m := withParams s .flagThenDest .none .mod16 false
    (s.reg 1).toNat = (15 : Nibble).toNat ∧ 16 ≤ (s.reg 2).toNat ∧ s.params.keyIndexPolicy = .fault ∧
    m.params.keyIndexPolicy = .mod16 ∧ (m.reg 2).toNat % 16 = (0 : Nibble).toNat := by decide +kernel

/-- KeyEdgeCompletesTheWait: blocked with the key up, blocked with it down, and running. -/
theorem test_witness_key_edge : let s := State.reset.block 0xF
    s.estate = .blocked 0xF ∧ s.keyDown 2 = false ∧ (s.setKey 2 true).keyDown 2 = true ∧
    ∀ x, State.reset.estate ≠ .blocked x :=
  ⟨rfl, by decide +kernel, by decide +kernel, fun _ h => by cases h⟩

/-- OnlyAKeyEdgeOrResetEndsTheWait: a transaction of each outcome. -/
theorem test_witness_key_wait : let s := State.reset.block 3
    s.estate = .blocked 3 ∧ transact .tick s = .next (s.doTick, .done) ∧
    transact (.press 7) s = .next (s.doPress 7, .done) ∧ s.keyDown 7 = false ∧
    transact .reset s = .next (s.doReset, .done) := ⟨rfl, rfl, rfl, by decide +kernel, rfl⟩

/-- LoadCopiesTheProgramAfterReset: the greatest program and the first too long, and an index into the first. -/
theorem test_witness_load : (List.replicate 3584 (0 : Byte)).length ≤ 3584 ∧ 3584 < (List.replicate 3585 (0 : Byte)).length ∧
    3583 < (List.replicate 3584 (0 : Byte)).length := by decide +kernel

/-- LoadCopiesTheProgramAfterReset: a state that reset has not just produced. -/
theorem test_witness_load_refused : let s := State.reset.setPc 0x202
    s ≠ State.resetWith s.params s.draws := by decide +kernel

/-- OnlyResetLeavesTheFaultState: a run with a step, a tick and a press in a fault state. -/
theorem test_witness_fault_run : let s := State.reset.raise .decodeUndefined
    let τs : List Transaction := [.step 0, .tick, .press 3]
    s.estate = .fault ⟨.decodeUndefined, 0x200, some 0x0000⟩ ∧ Transaction.reset ∉ τs ∧
    ∃ t outs, runTransactions τs s = .next (t, outs) ∧ Response.stepped s.estate ∈ outs :=
  ⟨rfl, by decide, _, _, rfl, by decide +kernel⟩

/-- EveryStepKeepsTheInvariant: a running state with the pc at its greatest value and a stack entry at its greatest. -/
theorem test_witness_inv_running : (atDepth (State.reset.setPc 0x10FE) 1 0x1000).Inv where
  paramsOk := by decide +kernel
  memOk := by decide +kernel
  pcOk := by decide +kernel
  stackOk := by
    intro k hk h
    rw [show (atDepth (State.reset.setPc 0x10FE) 1 0x1000).stack = Vector.replicate 16 0x1000 from rfl]
    simp
  estateOk := trivial

/-- EveryStepKeepsTheInvariant, EveryRunKeepsTheInvariant: a blocked state, and a run from it. -/
theorem test_witness_inv_blocked : let s := (run1 0xF50A State.reset)
    s.estate = .blocked 5 ∧ s.Inv ∧
    ∃ t outs, runTransactions [.tick, .step 0, .press 9, .displayRead] s = .next (t, outs) :=
  ⟨by decide +kernel,
    { paramsOk := by decide +kernel
      memOk := by decide +kernel
      pcOk := by decide +kernel
      stackOk := by
        intro k hk h
        rw [show (run1 0xF50A State.reset).sp.val = 0 by decide +kernel] at h
        omega
      estateOk := by
        rw [State.EstateOk, show (run1 0xF50A State.reset).estate = .blocked 5 by decide +kernel]
        decide +kernel },
    _, _, rfl⟩

/-- EveryRunKeepsTheInvariant: a state with the record of a fault. -/
theorem test_witness_inv_faulted : (State.reset.raise .decodeUndefined).EstateOk := ⟨rfl, rfl⟩

/-- CanonicalMemoriesAreEqualIffTheyReadTheSame: canonical memories that read the same, and that do not; and lists that
are not canonical. -/
theorem test_witness_canonical : let d := resetByte defaultParams
    Memory.wf d [] = true ∧ Memory.wf d [(0x000, 0), (0xFFF, 1)] = true ∧ Memory.wf d [(0x300, 0)] = false ∧
    Memory.wf d [(0x301, 1), (0x300, 1)] = false ∧ Memory.wf d [(0x1000, 1)] = false ∧
    Memory.read d [(0x000, 0), (0xFFF, 1)] 0xFFF ≠ Memory.read d [] 0xFFF := by decide +kernel

/-- VfIsWrittenByTheFlagInstructionsOnly: an instruction of each clause. -/
theorem test_witness_vf : writesFlag (.addReg 1 2) = true ∧ writesReg 0xF#4 (.addReg 1 2) = false ∧
    ownFault State.reset (.addReg 1 2) = none ∧ writesFlag (.or 1 2) = false ∧ writesReg 0xF#4 (.or 1 2) = false := by
  decide

/-- OnlyTabledRegistersChange: a destination and the flag change. -/
theorem test_witness_registers_change : let s := regs [(1, 200), (2, 100)]
    exec (.addReg 1 2) s = .next (after (exec (.addReg 1 2) s)) ∧
    (after (exec (.addReg 1 2) s)).reg 1 ≠ s.reg 1 ∧ (after (exec (.addReg 1 2) s)).reg 0xF ≠ s.reg 0xF :=
  ⟨rfl, by decide +kernel, by decide +kernel⟩

/-- UnlistedRegistersAreNotRead: a destination, a register beside the operands, and VF of a flag-writing instruction. -/
theorem test_witness_not_read : readsReg 1 (.ldImm 1 5) = false ∧ readsReg 3 (.addReg 1 2) = false ∧
    readsReg 0xF (.drw 1 2 5) = false ∧ readsReg 2 (.ldMemI 1) = false ∧ readsReg 0 (.ldIMem 1) = false := by decide

/-- OnlyNamedInstructionsWriteEachComponent: each component changes under some instruction. -/
theorem test_witness_components_change : let s := (regs [(1, 7)]).setIndex 0x300
    let x := withParams s .flagThenDest .xPlus1 .fault false
    (after (exec (.ldImm 1 5) s)).reg 1 ≠ s.reg 1 ∧ (after (exec (.addReg 1 2) (s.setReg 0xF 9))).reg 0xF ≠ 9 ∧
    (after (exec (.jp 5) s)).pc ≠ s.pc + 2 ∧ (after (exec (.seImm 1 7) s)).pc ≠ s.pc + 2 ∧
    (after (exec (.ldVxK 1) s)).pc ≠ s.pc + 2 ∧ ownFault s (.ret 0) = some .stackUnderflow ∧
    (after (exec (.rnd 1 5) s)).draws ≠ s.draws ∧
    (after (exec (.ldI 5) s)).index ≠ s.index ∧ (after (exec (.ldMemI 1) x)).index ≠ x.index ∧
    (after (exec (.call 0x300) s)).sp ≠ s.sp ∧ (after (exec (.call 0x300) s)).stack ≠ s.stack ∧
    (after (exec (.ldDtVx 1) s)).dt ≠ s.dt ∧ (after (exec (.ldStVx 1) s)).st ≠ s.st ∧
    (after (exec (.ldB 1) s)).mem ≠ s.mem ∧ (after (exec (.cls 0) s)).changed ≠ s.changed ∧
    (after (exec (.ldVxK 1) s)).estate ≠ s.estate ∧ (after (exec (.ret 0) s)).estate ≠ s.estate := by decide +kernel

/-- TicksCommuteWithStepsThatTouchNoTimer. -/
theorem test_witness_tick_commutes : let s := State.reset.withFetchWord 16 0x6105
    ∀ w, s.fetch = some w → ∀ x, decodeWord s.params.strictDecode w ≠ .ok (.ldVxDt x) ∧
      decodeWord s.params.strictDecode w ≠ .ok (.ldDtVx x) ∧ decodeWord s.params.strictDecode w ≠ .ok (.ldStVx x) := by
  intro s w hw x
  have h : s.fetch = some 0x6105 := by decide +kernel
  rw [h] at hw
  cases hw
  rw [show decodeWord s.params.strictDecode 0x6105 = .ok (.ldImm 1 5) by decide +kernel]
  refine ⟨?_, ?_, ?_⟩ <;> intro h <;> cases h

end Sys2Proof.Tests
end

section
/-! Registers and VF under every instruction (spec/10_state.md R22, R23): an effect writes its destinations and, under the
flag-writing instructions, VF; the flag it writes is 0 or 1 (spec/42_alu.md R156). -/

namespace Sys2Proof.Machine

variable {s : State}

/-! ### Registers under a pop, a push, a commit and a load -/

theorem State.reg_of_pop_eq_some {t : State} {w : Word} (h : s.pop = some (w, t)) (j : Nibble) : t.reg j = s.reg j := by
  unfold State.pop at h
  split at h
  · cases h; rfl
  · cases h

theorem State.reg_of_push_eq_some {t : State} {w : Word} (h : s.push w = some t) (j : Nibble) : t.reg j = s.reg j := by
  unfold State.push at h
  split at h
  · cases h; rfl
  · cases h

/-- R141: where VF is not the destination, both orders leave the flag in it. -/
theorem State.vf_commit_of_ne {x : Nibble} (h : 0xF#4 ≠ x) (r : Byte × Bool) :
    (s.commit x r).reg 0xF#4 = flagByte r.2 := by
  rw [State.reg_commit_of_ne s h.symm, if_neg h, if_pos rfl]

/-- R185: a register above the last one loaded keeps its value. -/
theorem State.reg_setRegsFrom_zero_of_le {bs : List Byte} (hbs : bs.length ≤ 16) {j : Nibble} (h : bs.length ≤ j.toNat) :
    (s.setRegsFrom 0 bs).reg j = s.reg j := by
  rw [State.reg_setRegsFrom s 0 bs (by omega), dif_neg (by omega)]

/-! ### What an effect leaves in the registers -/

/-- R23: a register that is no destination keeps its value, but for VF under a flag-writing instruction. -/
theorem effect_reg_of_not_written {i : Instr} {j : Nibble} (hw : writesReg j i = false)
    (hf : writesFlag i = true → j ≠ 0xF#4) : (effect s i).reg j = s.reg j := by
  cases i <;> simp only [writesReg, writesFlag, beq_eq_false_iff_ne, decide_eq_false_iff_not, forall_const] at hw hf
  case ret =>
    simp only [effect]
    split
    next hp => rw [State.setPc_reg, State.reg_of_pop_eq_some hp]
    next => rfl
  case call =>
    simp only [effect]
    split
    next hp => rw [State.setPc_reg, State.reg_of_push_eq_some hp]
    next => rfl
  case skp x => obtain h | ⟨b, h⟩ := effect_skp_or (s := s) (x := x) <;> simp [h]
  case sknp x => obtain h | ⟨b, h⟩ := effect_sknp_or (s := s) (x := x) <;> simp [h]
  case addReg | sub | shr | subn | shl => exact State.reg_commit_other s hw hf _
  case ldIMem x =>
    have := x.isLt
    rw [effect, State.advance_reg, State.advanceIndex_reg,
      State.reg_setRegsFrom_zero_of_le (by simp; omega) (by simp; omega)]
  all_goals simp [effect, hw, hf]

/-- R22: a flag-writing instruction whose destination is not VF leaves a flag there. -/
theorem effect_vf_of_writesFlag {i : Instr} (hf : writesFlag i = true) (hw : writesReg 0xF#4 i = false) :
    ∃ f, (effect s i).reg 0xF#4 = flagByte f := by
  cases i <;> simp only [writesFlag, reduceCtorEq] at hf
  case drw => exact ⟨_, (State.reg_setReg _ _ _ _).trans (if_pos rfl)⟩
  all_goals
    rw [writesReg, beq_eq_false_iff_ne] at hw
    exact ⟨_, State.vf_commit_of_ne hw _⟩

end Sys2Proof.Machine
end

section
open Sys2Proof Sys2Proof.Machine

/-- Settles O52: a fault leaves the registers alone, and an effect leaves a flag in VF or, where it names VF neither as
destination nor as flag, its old value. -/
theorem vfIsWrittenByTheFlagInstructionsOnly : Obligations.VfIsWrittenByTheFlagInstructionsOnly := by
  intro i s
  cases ho : ownFault s i with
  | some c => exact ⟨_, exec_of_ownFault ho, fun _ _ => nofun, fun _ _ => State.raise_reg s c _⟩
  | none =>
    refine ⟨_, exec_of_noFault ho, fun hf hw _ => ?_, fun hf hw => ?_⟩
    · obtain ⟨f, h⟩ := effect_vf_of_writesFlag (s := s) hf hw
      exact h ▸ flagByte_cases f
    · exact effect_reg_of_not_written hw (by simp [hf])
end

section
/-! Control flow (spec/41_control_flow.md R110 to R117): where a jump lands, what a call and a return leave, and the one
shape all register skips share. -/

namespace Sys2Proof.Machine

variable {s : State}

/-! ### Jump, call and return -/

/-- R84: extending an address to 16 bits keeps its value. -/
@[simp] theorem zextAddr_toNat (nnn : Addr) : (zextAddr nnn).toNat = nnn.toNat :=
  BitVec.toNat_setWidth_of_le (by decide)

/-- R113, below 16 entries. -/
theorem exec_call_of_lt {nnn : Addr} (h : s.sp.val < 16) : exec (.call nnn) s = .next
    { s with pc := zextAddr nnn, stack := s.stack.set s.sp.val (s.pc + 2) h, sp := ⟨s.sp.val + 1, by omega⟩ } := by
  have ho : ownFault s (.call nnn) = none := if_neg (by omega)
  rw [exec_of_noFault ho, effect_call h]

/-- R111, with an entry to pop. -/
theorem exec_ret_of_pos {ign : Nibble} (h : 0 < s.sp.val) : exec (.ret ign) s = .next
    { s with pc := s.stack[s.sp.val - 1]'(by omega), sp := ⟨s.sp.val - 1, by omega⟩ } := by
  have ho : ownFault s (.ret ign) = none := if_neg (by omega)
  rw [exec_of_noFault ho, effect_ret h]

/-! ### Skips -/

/-- R110: an instruction that ends in a skip moves the pc by 4 or by 2, as its condition says, and changes nothing
else. -/
theorem exec_skip_spec {i : Instr} {c : Bool} {P Q : Prop} (he : exec i s = .next (s.skipIf c))
    (hP : P → c = true) (hQ : Q → c = false) :
    ∃ t, exec i s = .next t ∧ (P → t.pc = s.pc + 4) ∧ (Q → t.pc = s.pc + 2) ∧
      SameMemory s t ∧ { t with pc := s.pc } = s :=
  ⟨_, he, fun h => by rw [hP h]; rfl, fun h => by rw [hQ h]; rfl, State.skipIf_byteAt s c, rfl⟩

/-- R116, R89: under `STRICT_DECODE` the bits 3:0 of 5XYn must be 0. -/
theorem decodeWord_strict_encode_seReg {x y n : Nibble} (h : n ≠ 0) :
    decodeWord true (encode (.seReg x y n)) = .error .strictBits := by
  rw [encode, decodeWord_family5 (opField_fXyn ..), nField_fXyn, checkStrict_error]
  exact ⟨rfl, rfl, h⟩

/-- R117, R89: under `STRICT_DECODE` the bits 3:0 of 9XYn must be 0. -/
theorem decodeWord_strict_encode_sneReg {x y n : Nibble} (h : n ≠ 0) :
    decodeWord true (encode (.sneReg x y n)) = .error .strictBits := by
  rw [encode, decodeWord_family9 (opField_fXyn ..), nField_fXyn, checkStrict_error]
  exact ⟨rfl, rfl, h⟩

end Sys2Proof.Machine
end

section
open Sys2Proof Sys2Proof.Machine

/-- Settles O10: a jump cannot fault, and its effect is one write of the pc. -/
theorem jumpSetsThePc : Obligations.JumpSetsThePc := by
  intro nnn s
  exact ⟨s.setPc (zextAddr nnn), exec_of_noFault rfl, zextAddr_toNat nnn, State.setPc_byteAt s _, rfl⟩

/-- Settles O11: a call with room writes the entry at sp and no other; a full stack is the fault of R261's table. -/
theorem callPushesTheReturnAddress : Obligations.CallPushesTheReturnAddress := by
  intro nnn s
  constructor
  · intro h
    refine ⟨_, exec_call_of_lt h, zextAddr_toNat nnn, Vector.getElem_set_self h, rfl, ?_, fun _ => rfl, rfl⟩
    exact fun k hk hne => Vector.getElem_set_ne h hk hne.symm
  · exact fun h => exec_of_ownFault (if_pos h)

/-- Settles O12: a return reads the top entry and leaves the stack's entries; an empty stack is the fault of R261's
table. -/
theorem returnPopsThePc : Obligations.ReturnPopsThePc := by
  intro ign s
  constructor
  · exact fun h => ⟨_, exec_ret_of_pos h, rfl, Nat.sub_add_cancel h, fun _ _ _ => rfl, fun _ => rfl, rfl⟩
  · exact fun h => exec_of_ownFault (if_pos h)

/-- Settles O14: both are skips, on the comparison and on its negation. -/
theorem skipsComparingAnImmediate : Obligations.SkipsComparingAnImmediate := by
  intro x nn s
  constructor
  · exact exec_skip_spec (exec_of_noFault rfl) beq_iff_eq.2 beq_eq_false_iff_ne.2
  · exact exec_skip_spec (exec_of_noFault rfl) bne_iff_ne.2 bne_eq_false_iff_eq.2

/-- Settles O15: both are skips that do not look at bits 3:0, which only the strict decoder checks. -/
theorem skipsComparingRegisters : Obligations.SkipsComparingRegisters := by
  intro x y n s
  refine ⟨?_, ?_, fun hn => ⟨decodeWord_strict_encode_seReg hn, decodeWord_strict_encode_sneReg hn⟩⟩
  · exact exec_skip_spec (exec_of_noFault rfl) beq_iff_eq.2 beq_eq_false_iff_ne.2
  · exact exec_skip_spec (exec_of_noFault rfl) bne_iff_ne.2 bne_eq_false_iff_eq.2
end

section
/-! ALU (spec/42_alu.md R140 to R148): the one shape all instructions that write Vx alone share, the one shape those that
commit a result and a flag share, and the sum of R148 as exact arithmetic. -/

namespace Sys2Proof.Machine

variable {s : State}

/-- R22: an instruction that ends in one register write leaves that value in Vx, moves the pc by 2 and changes nothing
else: VF stays unless it is Vx. -/
theorem exec_setReg_spec {i : Instr} {x : Nibble} {b : Byte} (he : exec i s = .next (s.setReg x b).advance) :
    ∃ t, exec i s = .next t ∧ t.reg x = b ∧ (∀ j, j ≠ x → t.reg j = s.reg j) ∧ t.pc = s.pc + 2 ∧
      SameMemory s t ∧ { t with v := s.v, pc := s.pc } = s :=
  ⟨_, he, (State.reg_setReg s x x b).trans (if_pos rfl), fun _ => State.reg_setReg_ne s b, rfl,
    State.setReg_byteAt s x b, rfl⟩

/-- R141: an instruction that ends in a commit leaves the result in Vx and the flag in VF; where both are VF, the later
write of `FLAG_ORDER` stands. -/
theorem exec_commit_spec {i : Instr} {x : Nibble} {r : Byte × Bool} (he : exec i s = .next (s.commit x r).advance) :
    ∃ t, exec i s = .next t ∧ (x ≠ 0xF#4 → t.reg x = r.1 ∧ t.reg 0xF#4 = flagByte r.2) ∧
      (x = 0xF#4 → s.params.flagOrder = .flagThenDest → t.reg 0xF#4 = r.1) ∧
      (x = 0xF#4 → s.params.flagOrder = .destThenFlag → t.reg 0xF#4 = flagByte r.2) ∧
      (∀ j, j ≠ x → j ≠ 0xF#4 → t.reg j = s.reg j) ∧ t.pc = s.pc + 2 ∧ SameMemory s t ∧
      { t with v := s.v, pc := s.pc } = s := by
  have hne (h : x ≠ 0xF#4) : (s.commit x r).reg x = r.1 ∧ (s.commit x r).reg 0xF#4 = flagByte r.2 :=
    ⟨(State.reg_commit_of_ne s h r x).trans (if_pos rfl), State.vf_commit_of_ne h.symm r⟩
  refine ⟨_, he, hne, ?_, ?_, fun _ h h' => State.reg_commit_other s h h' r, ?_, State.commit_byteAt s x r,
    State.commit_frame s x r⟩
  · rintro rfl ho; exact (State.reg_commit_flagThenDest s ho r _).trans (if_pos rfl)
  · rintro rfl ho; exact (State.reg_commit_destThenFlag s ho r _).trans (if_pos rfl)
  · rw [State.advance_pc, State.commit_pc]

/-- R156: the flag of a comparison. -/
theorem flagByte_decide (p : Prop) [Decidable p] : flagByte (decide p) = if p then 1 else 0 := by
  simp only [flagByte, decide_eq_true_eq]

/-- R148: the sum mod 256. -/
theorem addResult_fst_toNat (a b : Byte) : (addResult a b).1.toNat = (a.toNat + b.toNat) % 256 :=
  BitVec.toNat_ofNat ..

/-- R148: the carry. -/
theorem flagByte_addResult_snd (a b : Byte) :
    flagByte (addResult a b).2 = if 255 < a.toNat + b.toNat then 1 else 0 :=
  flagByte_decide _

end Sys2Proof.Machine
end

section
open Sys2Proof Sys2Proof.Machine

/-- Settles O17: the load cannot fault, and its effect is one write of Vx. -/
theorem loadImmediate : Obligations.LoadImmediate := by
  intro x nn s
  exact exec_setReg_spec (exec_of_noFault rfl)

/-- Settles O18: the effect is one write of Vx, and addition of bytes is the sum mod 256. -/
theorem addImmediateWrapsWithoutFlag : Obligations.AddImmediateWrapsWithoutFlag := by
  intro x nn s
  obtain ⟨t, he, hx, frame⟩ := exec_setReg_spec (exec_of_noFault (i := .addImm x nn) (s := s) rfl)
  exact ⟨t, he, hx ▸ BitVec.toNat_add .., frame⟩

/-- Settles O19: each of the three is one write of Vx. -/
theorem copyAndBitwiseWriteVxOnly : Obligations.CopyAndBitwiseWriteVxOnly := by
  intro x y s p hp
  simp only [List.mem_cons, List.not_mem_nil, or_false] at hp
  obtain rfl | rfl | rfl := hp
  · exact exec_setReg_spec (exec_of_noFault (i := .ldReg x y) rfl)
  · exact exec_setReg_spec (exec_of_noFault (i := .and x y) rfl)
  · exact exec_setReg_spec (exec_of_noFault (i := .xor x y) rfl)

/-- Settles O21: the effect is the commit of the sum and the carry. -/
theorem addRegistersSetsCarry : Obligations.AddRegistersSetsCarry := by
  intro x y s
  obtain ⟨t, he, hne, hdest, -, frame⟩ := exec_commit_spec (exec_of_noFault (i := .addReg x y) (s := s) rfl)
  rw [flagByte_addResult_snd] at hne
  refine ⟨t, he, fun h => ?_, fun h ho => ?_, frame⟩
  · obtain ⟨hx, hvf⟩ := hne h
    exact ⟨hx ▸ addResult_fst_toNat .., hvf⟩
  · exact hdest h ho ▸ addResult_fst_toNat ..
end

section
/-! Index and memory (spec/43_index_memory.md R180, R183): the one shape the instructions that set I share, the bytes a
store leaves and what it leaves alone, and the decimal digits of a byte as numbers. -/

namespace Sys2Proof.Machine

variable {s : State}

/-- R180 to R182: an instruction that ends in one write of I leaves that value there, moves the pc by 2 and changes
nothing else. -/
theorem exec_setIndex_spec {i : Instr} {w : Word} (he : exec i s = .next (s.setIndex w).advance) :
    ∃ t, exec i s = .next t ∧ t.index = w ∧ t.pc = s.pc + 2 ∧ SameMemory s t ∧
      { t with index := s.index, pc := s.pc } = s :=
  ⟨_, he, rfl, rfl, State.setIndex_byteAt s w, rfl⟩

/-- Stores change memory and nothing else. -/
theorem State.putBytes_frame (s : State) (a : Nat) (bs : List Byte) : { s.putBytes a bs with mem := s.mem } = s := by
  induction bs generalizing s a with
  | nil => rfl
  | cons b bs ih => exact congrArg (fun t : State => { t with mem := s.mem }) (ih (s.putByte a b) (a + 1))

/-- R183: an instruction that ends in a store of bytes inside the address space leaves them from `a` on, changes no
other byte, moves the pc by 2 and changes nothing else. -/
theorem exec_putBytes_spec {i : Instr} {a : Nat} {bs : List Byte} (he : exec i s = .next (s.putBytes a bs).advance)
    (hm : s.memWf) (ha : a + bs.length ≤ 4096) :
    ∃ t, exec i s = .next t ∧ (∀ (k : Nat) (h : k < bs.length), t.byteAt (a + k) = bs[k]) ∧
      SameMemoryOutside a bs.length s t ∧ t.pc = s.pc + 2 ∧ { t with mem := s.mem, pc := s.pc } = s := by
  refine ⟨_, he, s.byteAt_putBytes_inside a bs hm ha, s.byteAt_putBytes_outside a bs, ?_, ?_⟩
  · rw [State.advance_pc, State.putBytes_pc]
  · exact congrArg (fun t : State => { t with pc := s.pc }) (s.putBytes_frame a bs)

/-- R183: the digits fit in a byte. -/
theorem bcdDigits_map_toNat (b : Byte) :
    (bcdDigits b).map BitVec.toNat = [b.toNat / 100, b.toNat / 10 % 10, b.toNat % 10] := by
  have hb : b.toNat < 256 := b.isLt
  have fits {n : Nat} (hn : n < 256) : (BitVec.ofNat 8 n).toNat = n := Nat.mod_eq_of_lt hn
  simp only [bcdDigits, List.map_cons, List.map_nil]
  rw [fits (by omega), fits (by omega), fits (by omega)]

end Sys2Proof.Machine
end

section
open Sys2Proof Sys2Proof.Machine

/-- Settles O26: the load cannot fault, and its effect is one write of I. -/
theorem loadIndex : Obligations.LoadIndex := by
  intro nnn s
  obtain ⟨t, he, hi, frame⟩ := exec_setIndex_spec (exec_of_noFault (i := .ldI nnn) (s := s) rfl)
  exact ⟨t, he, hi ▸ zextAddr_toNat nnn, frame⟩

/-- Settles O28: below 0xFFE the effect is one store of the three digits, from there on the store is the fault of R261's
table. -/
theorem bcdStoresThreeDigits : Obligations.BcdStoresThreeDigits := by
  intro x s hm
  constructor
  · intro h
    have ho : ownFault s (.ldB x) = none := if_neg (by omega)
    have ha : s.index.toNat + 3 ≤ 4096 := by omega
    obtain ⟨t, he, hbytes, frame⟩ := exec_putBytes_spec (exec_of_noFault ho) hm ha
    have digit (k : Nat) (hk : k < 3) : (t.byteAt (s.index.toNat + k)).toNat =
        [(s.reg x).toNat / 100, (s.reg x).toNat / 10 % 10, (s.reg x).toNat % 10][k] := by
      simp only [← bcdDigits_map_toNat, List.getElem_map]
      exact congrArg BitVec.toNat (hbytes k hk)
    exact ⟨t, he, digit 0 (by decide), digit 1 (by decide), digit 2 (by decide), frame⟩
  · exact fun h => exec_of_ownFault (if_pos h)
end

section
/-! Display (spec/44_display.md R210): clear-display. -/

open Sys2Proof Sys2Proof.Machine

/-- Settles O33: clear-display cannot fault, and its effect shows the display that has no pixel set; the registers, VF
among them, are in the frame. -/
theorem clearZeroesEveryPixel : Obligations.ClearZeroesEveryPixel := by
  intro ign s
  exact ⟨(s.show Display.clear).advance, exec_of_noFault rfl, Display.pixel_clear, rfl, rfl,
    State.show_byteAt s Display.clear, rfl⟩
end

section
/-! Timers (spec/45_input_timers.md R233, R238, R239): the delay timer read into a register, and each timer set from
one. -/

open Sys2Proof Sys2Proof.Machine

/-- Settles O38: the load cannot fault, and its effect is one write of the delay timer's value to Vx; the timer itself
is in the frame. -/
theorem readDelayTimer : Obligations.ReadDelayTimer := by
  intro x s
  exact exec_setReg_spec (exec_of_noFault rfl)

/-- Settles O39: neither load can fault, and the effect of each is one write of its own timer; the other timer is in the
frame. -/
theorem setTimers : Obligations.SetTimers := by
  intro x s
  constructor
  · exact ⟨(s.setDt (s.reg x)).advance, exec_of_noFault rfl, rfl, rfl, State.setDt_byteAt s (s.reg x), rfl⟩
  · exact ⟨(s.setSt (s.reg x)).advance, exec_of_noFault rfl, rfl, rfl, State.setSt_byteAt s (s.reg x), rfl⟩
end

section
/-! Encoding (spec/30_encoding.md R81 to R91): the decoder undoes the encoder and the encoder the decoder, the words the
decoder rejects by their fields, and the rows of the opcode table by the fields of their patterns. -/

namespace Sys2Proof
open Laws

variable {strict : Bool} {w m : Word} {i j : Instr} {r : TableRow}

/-! ### Decoding what was encoded -/

theorem decodeWord_encode (h : i.wellFormed strict = true) : decodeWord strict (encode i) = .ok i := by
  cases i
  case cls | ret =>
    rw [encode, decodeWord_family0 (opField_fXnn ..)]
    simpa [decodeSys, nnField_fXnn, xField_fXnn, checkStrict_ok, Instr.wellFormed] using h
  case seReg | sneReg =>
    simpa [encode, decodeWord_family5, decodeWord_family9, opField_fXyn, xField_fXyn, yField_fXyn, nField_fXyn,
      checkStrict_ok, Instr.wellFormed] using h
  case ldReg | or | and | xor | addReg | sub | shr | subn | shl =>
    rw [encode, decodeWord_family8 (opField_fXyn ..)]
    simp [decodeAlu, xField_fXyn, yField_fXyn, nField_fXyn]
  case skp | sknp =>
    rw [encode, decodeWord_familyE (opField_fXnn ..)]
    simp [decodeKey, xField_fXnn, nnField_fXnn]
  case ldVxDt | ldVxK | ldDtVx | ldStVx | addI | ldF | ldB | ldMemI | ldIMem =>
    rw [encode, decodeWord_familyF (opField_fXnn ..)]
    simp [decodeMisc, xField_fXnn, nnField_fXnn]
  case jp | call | ldI | jpV0 =>
    simp [encode, decodeWord_family1, decodeWord_family2, decodeWord_familyA, decodeWord_familyB, opField_fAddr,
      nnnField_fAddr]
  case seImm | sneImm | ldImm | addImm | rnd =>
    simp [encode, decodeWord_family3, decodeWord_family4, decodeWord_family6, decodeWord_family7, decodeWord_familyC,
      opField_fXnn, xField_fXnn, nnField_fXnn]
  case drw => simp [encode, decodeWord_familyD, opField_fXyn, xField_fXyn, yField_fXyn, nField_fXyn]

/-! ### Encoding what was decoded -/

/-- `i` is a well-formed instruction with the word `w`. -/
def Instr.IsOf (strict : Bool) (w : Word) (i : Instr) : Prop := encode i = w ∧ i.wellFormed strict = true

theorem isOf_of_checkStrict {u : Nibble} (h : checkStrict strict u j = .ok i) (he : encode j = w)
    (hw : j.wellFormed strict = (!strict || u == 0)) : i.IsOf strict w := by
  obtain ⟨rfl, hu⟩ := checkStrict_ok.1 h
  exact ⟨he, hw.trans hu⟩

/-- A family with one instruction. -/
theorem isOf_of_eq_ok (hd : decodeWord strict w = .ok j) (he : encode j = w) (hw : j.wellFormed strict = true)
    (h : decodeWord strict w = .ok i) : i.IsOf strict w :=
  Except.ok.inj (hd.symm.trans h) ▸ ⟨he, hw⟩

theorem isOf_of_decodeSys (hop : opField w = 0x0) (h : decodeSys strict w = .ok i) : i.IsOf strict w := by
  unfold decodeSys at h
  split_ifs at h with h1 h2
  · exact isOf_of_checkStrict h (fXnn_of_fields hop h1) rfl
  · exact isOf_of_checkStrict h (fXnn_of_fields hop h2) rfl

theorem isOf_of_decodeAlu (hop : opField w = 0x8) (h : decodeAlu w = .ok i) : i.IsOf strict w := by
  unfold decodeAlu at h
  split_ifs at h <;> cases h <;> exact ⟨fXyn_of_fields hop ‹_›, rfl⟩

theorem isOf_of_decodeKey (hop : opField w = 0xE) (h : decodeKey w = .ok i) : i.IsOf strict w := by
  unfold decodeKey at h
  split_ifs at h <;> cases h <;> exact ⟨fXnn_of_fields hop ‹_›, rfl⟩

theorem isOf_of_decodeMisc (hop : opField w = 0xF) (h : decodeMisc w = .ok i) : i.IsOf strict w := by
  unfold decodeMisc at h
  split_ifs at h <;> cases h <;> exact ⟨fXnn_of_fields hop ‹_›, rfl⟩

/-- R85 to R89, read backwards. -/
theorem isOf_of_decodeWord (h : decodeWord strict w = .ok i) : i.IsOf strict w := by
  obtain hop | hop | hop | hop | hop | hop | hop | hop | hop | hop | hop | hop | hop | hop | hop | hop :=
    nibble_cases (opField w)
  · exact isOf_of_decodeSys hop (decodeWord_family0 hop ▸ h)
  · exact isOf_of_eq_ok (decodeWord_family1 hop) (fAddr_of_fields hop) rfl h
  · exact isOf_of_eq_ok (decodeWord_family2 hop) (fAddr_of_fields hop) rfl h
  · exact isOf_of_eq_ok (decodeWord_family3 hop) (fXnn_of_fields hop rfl) rfl h
  · exact isOf_of_eq_ok (decodeWord_family4 hop) (fXnn_of_fields hop rfl) rfl h
  · exact isOf_of_checkStrict ((decodeWord_family5 hop).symm.trans h) (fXyn_of_fields hop rfl) rfl
  · exact isOf_of_eq_ok (decodeWord_family6 hop) (fXnn_of_fields hop rfl) rfl h
  · exact isOf_of_eq_ok (decodeWord_family7 hop) (fXnn_of_fields hop rfl) rfl h
  · exact isOf_of_decodeAlu hop (decodeWord_family8 hop ▸ h)
  · exact isOf_of_checkStrict ((decodeWord_family9 hop).symm.trans h) (fXyn_of_fields hop rfl) rfl
  · exact isOf_of_eq_ok (decodeWord_familyA hop) (fAddr_of_fields hop) rfl h
  · exact isOf_of_eq_ok (decodeWord_familyB hop) (fAddr_of_fields hop) rfl h
  · exact isOf_of_eq_ok (decodeWord_familyC hop) (fXnn_of_fields hop rfl) rfl h
  · exact isOf_of_eq_ok (decodeWord_familyD hop) (fXyn_of_fields hop rfl) rfl h
  · exact isOf_of_decodeKey hop (decodeWord_familyE hop ▸ h)
  · exact isOf_of_decodeMisc hop (decodeWord_familyF hop ▸ h)

/-! ### The rejected words by their fields (R91) -/

theorem exists_error_checkStrict {u : Nibble} : (∃ e, checkStrict strict u j = .error e) ↔ strict = true ∧ u ≠ 0 := by
  simp [checkStrict_error]

theorem exists_error_decodeSys : (∃ e, decodeSys strict w = .error e) ↔
    nnField w ∉ [0xE0, 0xEE] ∨ (strict = true ∧ xField w ≠ 0) := by
  unfold decodeSys
  split_ifs with h1 h2
  · simp [exists_error_checkStrict, h1]
  · simp [exists_error_checkStrict, h2]
  · simp_all

theorem exists_error_decodeAlu : (∃ e, decodeAlu w = .error e) ↔ nField w ∈ [0x8, 0x9, 0xA, 0xB, 0xC, 0xD, 0xF] := by
  obtain h | h | h | h | h | h | h | h | h | h | h | h | h | h | h | h := nibble_cases (nField w) <;>
    simp [decodeAlu, h]

theorem exists_error_decodeKey : (∃ e, decodeKey w = .error e) ↔ nnField w ∉ [0x9E, 0xA1] := by
  unfold decodeKey
  split_ifs <;> simp_all

theorem exists_error_decodeMisc : (∃ e, decodeMisc w = .error e) ↔
    nnField w ∉ [0x07, 0x0A, 0x15, 0x18, 0x1E, 0x29, 0x33, 0x55, 0x65] := by
  unfold decodeMisc
  split_ifs <;> simp_all

/-- R91's list, read on the fields of the word. -/
def RejectedByFields (strict : Bool) (w : Word) : Prop :=
  (opField w = 0x0 ∧ nnField w ∉ [0xE0, 0xEE]) ∨
  (strict = true ∧ opField w = 0x0 ∧ xField w ≠ 0) ∨
  (opField w = 0x8 ∧ nField w ∈ [0x8, 0x9, 0xA, 0xB, 0xC, 0xD, 0xF]) ∨
  (opField w = 0xE ∧ nnField w ∉ [0x9E, 0xA1]) ∨
  (opField w = 0xF ∧ nnField w ∉ [0x07, 0x0A, 0x15, 0x18, 0x1E, 0x29, 0x33, 0x55, 0x65]) ∨
  (strict = true ∧ (opField w = 0x5 ∨ opField w = 0x9) ∧ nField w ≠ 0)

theorem exists_error_decodeWord : (∃ e, decodeWord strict w = .error e) ↔ RejectedByFields strict w := by
  unfold RejectedByFields
  obtain h | h | h | h | h | h | h | h | h | h | h | h | h | h | h | h := nibble_cases (opField w)
  · simp [decodeWord_family0 h, exists_error_decodeSys, h]
  · simp [decodeWord_family1 h, h]
  · simp [decodeWord_family2 h, h]
  · simp [decodeWord_family3 h, h]
  · simp [decodeWord_family4 h, h]
  · simp [decodeWord_family5 h, exists_error_checkStrict, h]
  · simp [decodeWord_family6 h, h]
  · simp [decodeWord_family7 h, h]
  · simp [decodeWord_family8 h, exists_error_decodeAlu, h]
  · simp [decodeWord_family9 h, exists_error_checkStrict, h]
  · simp [decodeWord_familyA h, h]
  · simp [decodeWord_familyB h, h]
  · simp [decodeWord_familyC h, h]
  · simp [decodeWord_familyD h, h]
  · simp [decodeWord_familyE h, exists_error_decodeKey, h]
  · simp [decodeWord_familyF h, exists_error_decodeMisc, h]

/-! ### The rows of the opcode table by the fields of their patterns (R81) -/

/-- What a row with the pattern `p` asks of a word beside the family nibble. -/
def subSelects (strict : Bool) (w p : Word) : Bool :=
  if opField p = 0x0 then nnField w == nnField p && (!strict || xField w == 0)
  else if opField p = 0x5 ∨ opField p = 0x9 then !strict || nField w == 0
  else if opField p = 0x8 then nField w == nField p
  else if opField p = 0xE ∨ opField p = 0xF then nnField w == nnField p
  else true

/-- The five shapes of a row: its masks go by the family of its pattern. -/
theorem row_shape : ∀ r ∈ opcodeTable,
    (r.mask = 0xF0FF ∧ r.maskStrict = 0xFFFF ∧ r.pat = fXnn 0x0 0 (nnField r.pat)) ∨
    (r.mask = 0xF000 ∧ r.maskStrict = 0xF00F ∧ (r.pat = fXyn 0x5 0 0 0 ∨ r.pat = fXyn 0x9 0 0 0)) ∨
    (r.mask = 0xF00F ∧ r.maskStrict = 0xF00F ∧ r.pat = fXyn 0x8 0 0 (nField r.pat)) ∨
    (r.mask = 0xF0FF ∧ r.maskStrict = 0xF0FF ∧
      (r.pat = fXnn 0xE 0 (nnField r.pat) ∨ r.pat = fXnn 0xF 0 (nnField r.pat))) ∨
    (r.mask = 0xF000 ∧ r.maskStrict = 0xF000 ∧ r.pat = fXyn (opField r.pat) 0 0 0 ∧
      opField r.pat ∉ [0x0, 0x5, 0x8, 0x9, 0xE, 0xF]) := by
  decide

theorem selects_false (hm : r.mask = m) : r.selects false w = (w &&& m == r.pat) := by
  rw [← hm]; rfl

theorem selects_true (hs : r.maskStrict = m) : r.selects true w = (w &&& m == r.pat) := by
  rw [← hs]; rfl

theorem selects_of_masks (hm : r.mask = m) (hs : r.maskStrict = m) : r.selects strict w = (w &&& m == r.pat) := by
  rw [TableRow.selects, hm, hs, ite_self]

theorem family_selects_fXyn (p : Nibble) : (w &&& 0xF000 == fXyn p 0 0 0) = decide (opField w = p) :=
  family_selects w p

/-- R81: a row selects the words whose fields are those of its pattern. -/
theorem selects_eq_fields (hr : r ∈ opcodeTable) :
    r.selects strict w = (opField w == opField r.pat && subSelects strict w r.pat) := by
  unfold subSelects
  obtain ⟨hm, hs, hp⟩ | ⟨hm, hs, hp | hp⟩ | ⟨hm, hs, hp⟩ | ⟨hm, hs, hp | hp⟩ | ⟨hm, hs, hp, hop⟩ := row_shape r hr
  case inl =>
    cases strict
    · rw [selects_false hm, hp, sub_selects]; simp [opField_fXnn, nnField_fXnn, Bool.beq_eq_decide_eq]
    · rw [selects_true hs, hp, full_selects]; simp [opField_fXnn, nnField_fXnn, Bool.beq_eq_decide_eq, Bool.and_comm]
  case inr.inl.inl | inr.inl.inr =>
    cases strict
    · rw [selects_false hm, hp, family_selects_fXyn]; simp [opField_fXyn, Bool.beq_eq_decide_eq]
    · rw [selects_true hs, hp, nibble_selects]; simp [opField_fXyn, Bool.beq_eq_decide_eq]
  case inr.inr.inl =>
    rw [selects_of_masks hm hs, hp, nibble_selects]; simp [opField_fXyn, nField_fXyn, Bool.beq_eq_decide_eq]
  case inr.inr.inr.inl.inl | inr.inr.inr.inl.inr =>
    rw [selects_of_masks hm hs, hp, sub_selects]; simp [opField_fXnn, nnField_fXnn, Bool.beq_eq_decide_eq]
  case inr.inr.inr.inr =>
    simp only [List.mem_cons, List.not_mem_nil, not_or, BitVec.ofNat_eq_ofNat] at hop
    rw [selects_of_masks hm hs, hp, family_selects_fXyn]; simp [opField_fXyn, Bool.beq_eq_decide_eq, hop]

/-- R96: the word of an instruction selects the row of its mnemonic and no other. -/
theorem filter_selects_encode (h : i.wellFormed strict = true) :
    (opcodeTable.filter (fun r => r.selects strict (encode i))).map TableRow.mnemonic = [i.mnemonic] := by
  rw [List.filter_congr fun r hr => selects_eq_fields hr]
  cases i
  case cls | ret =>
    rw [Instr.wellFormed] at h
    simp only [encode, opField_fXnn, nnField_fXnn, xField_fXnn, subSelects, h]
    rfl
  case seReg | sneReg =>
    rw [Instr.wellFormed] at h
    simp only [encode, opField_fXyn, nField_fXyn, subSelects, h]
    rfl
  all_goals
    simp only [encode, opField_fXyn, opField_fXnn, opField_fAddr, nField_fXyn, nnField_fXnn, subSelects]
    rfl

/-- No pattern of the table is on R91's list. -/
theorem pat_not_rejected : ∀ r ∈ opcodeTable, ¬ RejectedByFields false r.pat := by
  unfold RejectedByFields; decide

theorem not_rejected_of_selects (hr : r ∈ opcodeTable) (h : r.selects strict w = true) :
    ¬ RejectedByFields strict w := by
  rw [selects_eq_fields hr, Bool.and_eq_true, beq_iff_eq] at h
  obtain ⟨hop, hsub⟩ := h
  have hpat := pat_not_rejected r hr
  unfold RejectedByFields at hpat ⊢
  rw [hop]
  rintro (⟨h, hne⟩ | ⟨rfl, h, hne⟩ | ⟨h, hne⟩ | ⟨h, hne⟩ | ⟨h, hne⟩ | ⟨rfl, h | h, hne⟩) <;>
    simp only [subSelects, h] at hsub
  · obtain ⟨hnn, -⟩ := Bool.and_eq_true_iff.1 hsub
    exact hpat (.inl ⟨h, eq_of_beq hnn ▸ hne⟩)
  · obtain ⟨-, hx⟩ := Bool.and_eq_true_iff.1 hsub
    exact hne (by simpa using hx)
  · exact hpat (.inr (.inr (.inl ⟨h, eq_of_beq hsub ▸ hne⟩)))
  · exact hpat (.inr (.inr (.inr (.inl ⟨h, eq_of_beq hsub ▸ hne⟩))))
  · exact hpat (.inr (.inr (.inr (.inr (.inl ⟨h, eq_of_beq hsub ▸ hne⟩)))))
  · exact hne (by simpa using hsub)
  · exact hne (by simpa using hsub)

end Sys2Proof
end

section
open Sys2Proof Sys2Proof.Machine

/-- Settles O1, family by family: every field of a format reads back from the word it was put into. -/
theorem decodeOfEncodeIsTheInstruction : Obligations.DecodeOfEncodeIsTheInstruction := by
  intro strict i h
  exact decodeWord_encode h

/-- Settles O2, family by family: a word is made of the fields the decoder read. -/
theorem encodeOfDecodeIsTheWord : Obligations.EncodeOfDecodeIsTheWord := by
  intro strict w i h
  exact isOf_of_decodeWord h

/-- Settles O3: R91's list on the fields of the word, whose numbers are quotients and remainders. -/
theorem rejectedWordsAreTheListedOnes : Obligations.RejectedWordsAreTheListedOnes := by
  intro strict w
  rw [exists_error_decodeWord]
  simp only [RejectedByFields, List.mem_cons, List.not_mem_nil, ← BitVec.toNat_inj, opField_toNat, xField_toNat,
    nField_toNat, nnField_toNat, ne_eq]
  rfl

/-- Settles O4: a word that decodes is the word of its instruction, which selects one row; a word that some row selects
is not on R91's list. -/
theorem decoderAgreesWithOpcodeTable : Obligations.DecoderAgreesWithOpcodeTable := by
  intro strict w
  constructor
  · intro i h
    obtain ⟨rfl, hw⟩ := isOf_of_decodeWord h
    exact filter_selects_encode hw
  · intro e h
    refine List.filter_eq_nil_iff.2 fun r hr hsel => ?_
    exact not_rejected_of_selects hr hsel (exists_error_decodeWord.1 ⟨e, h⟩)

/-- Settles O5: each word is closed, and so is what it decodes to. -/
theorem sampleWordsDecode : Obligations.SampleWordsDecode := by
  unfold Obligations.SampleWordsDecode
  decide
end

section
/-! Frames (spec/10_state.md R20 to R36, spec/41_control_flow.md R110): for each component, the instructions whose
effect changes it. -/

namespace Sys2Proof.Machine

variable {s : State} {i : Instr}

/-! ### Control transfers -/

/-- The instructions that transfer control (R111 to R118, R231, R232). -/
def isControl : Instr → Bool
  | .ret _ | .jp _ | .call _ | .jpV0 _ => true
  | .seImm _ _ | .sneImm _ _ | .seReg _ _ _ | .sneReg _ _ _ | .skp _ | .sknp _ => true
  | _ => false

theorem effect_ret_eq (s : State) (ign : Nibble) : ∃ w n, effect s (.ret ign) = { s with pc := w, sp := n } := by
  by_cases h : 0 < s.sp.val
  · exact ⟨_, _, effect_ret h⟩
  · exact ⟨s.pc, s.sp, by simp only [effect, State.pop_none s (by omega)]⟩

theorem effect_call_eq (s : State) (nnn : Addr) :
    ∃ w st n, effect s (.call nnn) = { s with pc := w, stack := st, sp := n } := by
  by_cases h : s.sp.val < 16
  · exact ⟨_, _, _, effect_call h⟩
  · exact ⟨s.pc, s.stack, s.sp, by simp only [effect, State.push_none s (show s.sp.val = 16 by omega)]⟩

/-- A control transfer changes the pc and the stack only. -/
theorem effect_frame_of_isControl (h : isControl i = true) :
    { effect s i with pc := s.pc, stack := s.stack, sp := s.sp } = s := by
  cases i <;> simp only [isControl, Bool.false_eq_true] at h
  case ret ign =>
    obtain ⟨w, n, h⟩ := effect_ret_eq s ign
    rw [h]
  case call nnn =>
    obtain ⟨w, st, n, h⟩ := effect_call_eq s nnn
    rw [h]
  case skp x =>
    obtain h | ⟨b, h⟩ := effect_skp_or (s := s) (x := x)
    · rw [h]
    · rw [h]; rfl
  case sknp x =>
    obtain h | ⟨b, h⟩ := effect_sknp_or (s := s) (x := x)
    · rw [h]
    · rw [h]; rfl
  all_goals rfl

/-- An instruction that changes a component other than the pc and the stack is no control transfer. -/
theorem not_isControl_of_ne {α : Type} (f : State → α)
    (hf : ∀ t : State, f { t with pc := s.pc, stack := s.stack, sp := s.sp } = f t) (h : f (effect s i) ≠ f s) :
    isControl i = false :=
  Bool.eq_false_iff.2 fun hc => h ((hf _).symm.trans (congrArg f (effect_frame_of_isControl hc)))

/-- R230: without a fault the key index exists. -/
theorem keyIdx_some_of_ownFault {x : Nibble} (ho : ownFault s (.skp x) = none) :
    ∃ k, keyIdx s.params.keyIndexPolicy (s.reg x) = some k := by
  rw [ownFault] at ho
  split_ifs at ho with h
  exact keyIdx_some h

theorem effect_skp_of_keyIdx {x k : Nibble} (hk : keyIdx s.params.keyIndexPolicy (s.reg x) = some k) :
    effect s (.skp x) = s.skipIf (s.keyDown k) := by
  simp only [effect, hk]

theorem effect_sknp_of_keyIdx {x k : Nibble} (hk : keyIdx s.params.keyIndexPolicy (s.reg x) = some k) :
    effect s (.sknp x) = s.skipIf (!s.keyDown k) := by
  simp only [effect, hk]

/-! ### The instructions that change a component -/

theorem State.advanceIndex_index_of_ne {n : Nat} (h : (s.advanceIndex n).index ≠ s.index) :
    s.params.indexAdvance = .xPlus1 := by
  cases ha : s.params.indexAdvance with
  | none => simp [State.advanceIndex, ha] at h
  | xPlus1 => rfl

theorem effect_index_of_ne (h : (effect s i).index ≠ s.index) :
    (∃ nnn, i = .ldI nnn) ∨ (∃ x, i = .addI x ∨ i = .ldF x) ∨
      (s.params.indexAdvance = .xPlus1 ∧ ∃ x, i = .ldMemI x ∨ i = .ldIMem x) := by
  have hc := not_isControl_of_ne State.index (fun _ => rfl) h
  cases i <;> simp [effect, isControl] at hc h ⊢
  case ldMemI => simpa using State.advanceIndex_index_of_ne (s := s.putBytes _ _) (by simpa using h)
  case ldIMem => simpa using State.advanceIndex_index_of_ne (s := s.setRegsFrom _ _) (by simpa using h)

theorem effect_dt_of_ne (h : (effect s i).dt ≠ s.dt) : ∃ x, i = .ldDtVx x := by
  have hc := not_isControl_of_ne State.dt (fun _ => rfl) h
  cases i <;> simp [effect, isControl] at hc h ⊢

theorem effect_st_of_ne (h : (effect s i).st ≠ s.st) : ∃ x, i = .ldStVx x := by
  have hc := not_isControl_of_ne State.st (fun _ => rfl) h
  cases i <;> simp [effect, isControl] at hc h ⊢

theorem effect_mem_of_ne (h : (effect s i).mem ≠ s.mem) : ∃ x, i = .ldB x ∨ i = .ldMemI x := by
  have hc := not_isControl_of_ne State.mem (fun _ => rfl) h
  cases i <;> simp [effect, isControl] at hc h ⊢

theorem effect_screen_of_ne (h : (effect s i).disp ≠ s.disp ∨ (effect s i).changed ≠ s.changed) :
    (effect s i).changed = true ∧ ((∃ ign, i = .cls ign) ∨ ∃ x y n, i = .drw x y n) := by
  have hc := not_isControl_of_ne (fun t => (t.disp, t.changed)) (fun _ => rfl) (by simpa [imp_iff_not_or] using h)
  cases i <;> simp [effect, isControl] at hc h ⊢

theorem effect_draw_of_ne (h : (effect s i).rand8In ≠ s.rand8In ∨ (effect s i).draws ≠ s.draws) :
    ∃ x nn, i = .rnd x nn := by
  have hc := not_isControl_of_ne (fun t => (t.rand8In, t.draws)) (fun _ => rfl) (by simpa [imp_iff_not_or] using h)
  cases i <;> simp [effect, isControl] at hc h ⊢

theorem effect_sp_of_ne (h : (effect s i).sp ≠ s.sp) : (∃ nnn, i = .call nnn) ∨ ∃ ign, i = .ret ign := by
  cases i
  case skp x => obtain e | ⟨b, e⟩ := effect_skp_or (s := s) (x := x) <;> simp [e] at h
  case sknp x => obtain e | ⟨b, e⟩ := effect_sknp_or (s := s) (x := x) <;> simp [e] at h
  all_goals simp [effect] at h ⊢

theorem effect_stack_of_ne (h : (effect s i).stack ≠ s.stack) : ∃ nnn, i = .call nnn := by
  cases i
  case ret ign =>
    obtain ⟨w, n, e⟩ := effect_ret_eq s ign
    exact absurd (congrArg State.stack e) h
  case skp x => obtain e | ⟨b, e⟩ := effect_skp_or (s := s) (x := x) <;> simp [e] at h
  case sknp x => obtain e | ⟨b, e⟩ := effect_sknp_or (s := s) (x := x) <;> simp [e] at h
  all_goals simp [effect] at h ⊢

theorem effect_estate_of_ne (h : (effect s i).estate ≠ s.estate) : ∃ x, i = .ldVxK x := by
  obtain he | ⟨x, hx, -⟩ := effect_estate s i
  · exact absurd he h
  · exact ⟨x, hx⟩

/-! ### The pc (R110) -/

theorem State.skipIf_pc_of_ne {c : Bool} (h : (s.skipIf c).pc ≠ s.pc + 2) : (s.skipIf c).pc = s.pc + 4 :=
  (skipIf_pc_or s c).resolve_right h

/-- R110: the instructions that do not end at the next one. -/
theorem effect_pc_of_ne (ho : ownFault s i = none) (h : (effect s i).pc ≠ s.pc + 2) :
    (∃ x, i = .ldVxK x ∧ (effect s i).pc = s.pc) ∨ (∃ ign, i = .ret ign) ∨
      (∃ nnn, i = .jp nnn ∨ i = .call nnn ∨ i = .jpV0 nnn) ∨
      ((effect s i).pc = s.pc + 4 ∧ ((∃ x nn, i = .seImm x nn ∨ i = .sneImm x nn) ∨
        (∃ x y n, i = .seReg x y n ∨ i = .sneReg x y n) ∨ (∃ x, i = .skp x ∨ i = .sknp x))) := by
  cases i
  case seImm | sneImm | seReg | sneReg =>
    have h4 := State.skipIf_pc_of_ne h
    simp [effect] at h4 ⊢
    exact h4
  case skp x =>
    obtain ⟨k, hk⟩ := keyIdx_some_of_ownFault ho
    rw [effect_skp_of_keyIdx hk] at h ⊢
    simpa using State.skipIf_pc_of_ne h
  case sknp x =>
    obtain ⟨k, hk⟩ := keyIdx_some_of_ownFault ho
    rw [effect_sknp_of_keyIdx hk] at h ⊢
    simpa using State.skipIf_pc_of_ne h
  all_goals simp [effect] at h ⊢

end Sys2Proof.Machine
end

section
open Sys2Proof Sys2Proof.Machine

/-- Settles O53: a fault writes no register, and an effect keeps every register that R22 and R23 do not name. -/
theorem onlyTabledRegistersChange : Obligations.OnlyTabledRegistersChange := by
  intro i s t j he hne
  obtain ⟨c, -, rfl⟩ | ⟨-, rfl⟩ := exec_cases he
  · exact absurd (State.raise_reg s c j) hne
  · by_contra hnot
    obtain ⟨hw, hf⟩ := not_or.1 hnot
    exact hne (effect_reg_of_not_written (Bool.eq_false_iff.2 hw) fun hf' hj => hf ⟨hf', hj⟩)

/-- Settles O55: a fault changes the engine state only, and each component has its own lemma on the effects that change
it. -/
theorem onlyNamedInstructionsWriteEachComponent : Obligations.OnlyNamedInstructionsWriteEachComponent := by
  intro i s t he
  refine ⟨fun j => onlyTabledRegistersChange i s t j he, ?_⟩
  obtain ⟨c, ho, rfl⟩ | ⟨ho, rfl⟩ := exec_cases he
  · simp [ho]
  · simp only [ho, reduceCtorEq, false_implies, implies_true, exists_false, false_or, or_false, true_and]
    exact ⟨effect_pc_of_ne ho, effect_index_of_ne, effect_sp_of_ne, effect_stack_of_ne, effect_dt_of_ne,
      effect_st_of_ne, effect_mem_of_ne, effect_screen_of_ne, effect_estate_of_ne, effect_draw_of_ne,
      effect_key s i, effect_params s i, effect_currentOpcode s i⟩
end

section
/-! The step (spec/30_encoding.md R90, spec/60_exceptions.md R261 to R265): it takes the tabled fault, or it has the
effect of the instruction it fetched. -/

namespace Sys2Proof.Machine

variable {s : State} {i : Instr} {w : Word} {c : FaultCause}

/-! ### The fault of a step -/

/-- R265: the fetch comes first. -/
theorem tabledFault_of_fetch_none (hf : s.fetch = none) : s.tabledFault = some .memFetch := by
  simp [State.tabledFault, hf]

/-- R265: then the decode. -/
theorem tabledFault_of_decode_error {e : DecodeError} (hf : s.fetch = some w)
    (hd : decodeWord s.params.strictDecode w = .error e) : s.tabledFault = some .decodeUndefined := by
  simp [State.tabledFault, hf, hd]

/-- R265: then the instruction's own fault. -/
theorem tabledFault_of_decode_ok (hf : s.fetch = some w) (hd : decodeWord s.params.strictDecode w = .ok i) :
    s.tabledFault = ownFault s i := by
  simp [State.tabledFault, hf, hd]

/-- The state after the fault `c` of a step (R262, R263). -/
def State.faulted (s : State) (c : FaultCause) : State :=
  { s with currentOpcode := s.fetch.getD s.currentOpcode, estate := .fault ⟨c, s.pc, s.fetch⟩ }

theorem raiseFetch_eq_faulted (hf : s.fetch = none) : s.raiseFetch = s.faulted .memFetch := by
  rw [State.faulted, hf]; rfl

theorem raise_latch_eq_faulted (hf : s.fetch = some w) (c : FaultCause) : (s.latch w).raise c = s.faulted c := by
  rw [State.faulted, hf]; rfl

/-- Everything a step in Running can do: the fault of the table, or the effect of the instruction fetched. -/
theorem step_cases (hr : s.estate = .running) :
    (∃ c, s.tabledFault = some c ∧ step s = .next (s.faulted c)) ∨
    (∃ w i, s.fetch = some w ∧ decodeWord s.params.strictDecode w = .ok i ∧ ownFault s i = none ∧
      step s = .next (effect (s.latch w) i)) := by
  cases hf : s.fetch with
  | none =>
    exact .inl ⟨_, tabledFault_of_fetch_none hf, raiseFetch_eq_faulted hf ▸ step_fetchFault hr hf⟩
  | some w =>
    cases hd : decodeWord s.params.strictDecode w with
    | error e =>
      exact .inl ⟨_, tabledFault_of_decode_error hf hd, raise_latch_eq_faulted hf _ ▸ step_decodeFault hr hf hd⟩
    | ok i =>
      cases ho : ownFault s i with
      | some c =>
        exact .inl ⟨c, (tabledFault_of_decode_ok hf hd).trans ho,
          raise_latch_eq_faulted hf c ▸ step_ownFault hr hf hd ho⟩
      | none => exact .inr ⟨w, i, rfl, hd, ho, step_effect hr hf hd ho⟩

theorem step_of_tabledFault (hr : s.estate = .running) (hc : s.tabledFault = some c) :
    step s = .next (s.faulted c) := by
  obtain ⟨c', hc', h⟩ | ⟨w, i, hf, hd, ho, -⟩ := step_cases hr
  · cases hc.symm.trans hc'; exact h
  · rw [tabledFault_of_decode_ok hf hd, ho] at hc; cases hc

theorem step_of_not_running (h : s.estate ≠ .running) : step s = .next s := by
  cases he : s.estate with
  | running => exact absurd he h
  | blocked x => exact step_blocked he
  | fault r => exact step_faulted he

/-- No instruction faults with the cause of the fetch. -/
theorem ownFault_ne_memFetch : ownFault s i ≠ some .memFetch := by
  cases i <;> simp [ownFault]

theorem tabledFault_eq_memFetch_iff : s.tabledFault = some .memFetch ↔ s.fetch = none := by
  constructor
  · intro h
    cases hf : s.fetch with
    | none => rfl
    | some w =>
      cases hd : decodeWord s.params.strictDecode w with
      | error e => rw [tabledFault_of_decode_error hf hd] at h; cases h
      | ok i => exact absurd ((tabledFault_of_decode_ok hf hd).symm.trans h) ownFault_ne_memFetch
  · exact tabledFault_of_fetch_none

/-! ### The engine state after an effect -/

/-- R235: FX0A blocks. -/
theorem effect_ldVxK_estate (x : Nibble) : (effect s (.ldVxK x)).estate = .blocked x := rfl

theorem effect_estate_of_ne_ldVxK (h : ∀ x, i ≠ .ldVxK x) : (effect s i).estate = s.estate :=
  (effect_estate s i).resolve_right fun ⟨x, hx, _⟩ => h x hx

theorem effect_not_fault (hr : s.estate = .running) (r : FaultRecord) : (effect s i).estate ≠ .fault r := by
  obtain he | ⟨x, -, he⟩ := effect_estate s i
  · rw [he, hr]; nofun
  · rw [he]; nofun

end Sys2Proof.Machine
end

section
open Sys2Proof Sys2Proof.Machine

/-- Settles O6: the range check is the fetch's own, and the word is its two bytes in order. -/
theorem fetchReadsABigEndianWordAtAnyAddress : Obligations.FetchReadsABigEndianWordAtAnyAddress := by
  intro s
  constructor
  · exact fun h => ⟨_, s.fetch_some_iff.2 ⟨h, rfl⟩, wordOfBytes_toNat _ _⟩
  · exact fun h => if_neg (by omega)

/-- Settles O7: R90's last branch. -/
theorem stepRunsTheDecodedInstruction : Obligations.StepRunsTheDecodedInstruction := by
  intro s w i hr hf hd
  cases ho : ownFault s i with
  | some c => rw [step_ownFault hr hf hd ho]; exact (exec_of_ownFault ((ownFault_latch s w i).trans ho)).symm
  | none => rw [step_effect hr hf hd ho]; exact (exec_of_noFault ((ownFault_latch s w i).trans ho)).symm

/-- Settles O8: R90's first two branches. -/
theorem stepWhileBlockedOrFaultedChangesNothing : Obligations.StepWhileBlockedOrFaultedChangesNothing := by
  intro s h
  exact step_of_not_running h

/-- Settles O9: a step in Running takes the tabled fault, or has an effect, which is no fault state. -/
theorem faultsArePreciseAndExactlyAsTabled : Obligations.FaultsArePreciseAndExactlyAsTabled := by
  intro s hr
  obtain ⟨c, hc, hs⟩ | ⟨w, i, hf, hd, ho, hs⟩ := step_cases hr
  · refine ⟨_, hs, fun c' hc' => ?_, fun hn => ?_⟩
    · cases hc.symm.trans hc'; rfl
    · rw [hc] at hn; cases hn
  · refine ⟨_, hs, fun c hc => ?_, fun _ => ⟨effect_not_fault hr, ?_⟩⟩
    · rw [tabledFault_of_decode_ok hf hd, ho] at hc; cases hc
    · rw [effect_currentOpcode, hf]; rfl
end

section
/-! The invariant (spec/10_state.md R25, R27, R39, R263): reset establishes it, and faults, effects and the host's
transactions keep it. -/

namespace Sys2Proof.Machine

variable {s t : State} {i : Instr} {w : Word} {c : FaultCause}

/-! ### The bounds of the pc and of the stack -/

theorem State.stackOk_top (hs : s.StackOk) (h : 0 < s.sp.val) : (s.stack[s.sp.val - 1]'(by omega)).toNat ≤ 0x1000 :=
  hs _ (by omega) (by omega)

/-- R118, D23: the sum of BNNN fits in the pc. -/
theorem jumpIndexed_toNat (v0 : Byte) (nnn : Addr) : (jumpIndexed v0 nnn).toNat = v0.toNat + nnn.toNat := by
  have hv := v0.isLt
  have hn := nnn.isLt
  rw [jumpIndexed, BitVec.toNat_add, zextAddr_toNat, zextByte, BitVec.toNat_setWidth_of_le (by decide)]
  omega

theorem ret_sp_pos {ign : Nibble} (ho : ownFault s (.ret ign) = none) : 0 < s.sp.val := by
  rw [ownFault] at ho
  split_ifs at ho with h
  omega

theorem call_sp_lt {nnn : Addr} (ho : ownFault s (.call nnn) = none) : s.sp.val < 16 := by
  rw [ownFault] at ho
  split_ifs at ho with h
  omega

theorem pc_add_toNat_le {a : Word} (ha : a.toNat ≤ 0xFFE) (n : Word) : (a + n).toNat ≤ 0xFFE + n.toNat := by
  rw [BitVec.toNat_add]; omega

/-- R25: from a pc that was fetched from, no effect leaves the pc above 0xFF + 0xFFF. -/
theorem effect_pc_le (hpc : s.pc.toNat ≤ 0xFFE) (hs : s.StackOk) (ho : ownFault s i = none) :
    (effect s i).pc.toNat ≤ 0x10FE := by
  by_cases h : (effect s i).pc = s.pc + 2
  · rw [h]; exact (pc_add_toNat_le hpc _).trans (by decide)
  obtain ⟨x, -, h⟩ | ⟨ign, rfl⟩ | ⟨nnn, rfl | rfl | rfl⟩ | ⟨h, -⟩ := effect_pc_of_ne ho h
  · rw [h]; omega
  · have hpos := ret_sp_pos ho
    have htop := State.stackOk_top hs hpos
    rw [effect_ret hpos]; exact htop.trans (by decide)
  · have := nnn.isLt
    rw [effect, State.setPc_pc, zextAddr_toNat]; omega
  · have := nnn.isLt
    rw [effect_call (call_sp_lt ho), zextAddr_toNat]; omega
  · have := nnn.isLt
    have := (s.reg 0).isLt
    rw [effect, State.setPc_pc, jumpIndexed_toNat]; omega
  · rw [h]; exact (pc_add_toNat_le hpc _).trans (by decide)

/-- R27, R113: a call pushes the address after it, and a return leaves the entries below. -/
theorem effect_stackOk (hpc : s.pc.toNat ≤ 0xFFE) (hs : s.StackOk) (ho : ownFault s i = none) :
    (effect s i).StackOk := by
  by_cases hcall : ∃ nnn, i = .call nnn
  · obtain ⟨nnn, rfl⟩ := hcall
    rw [effect_call (call_sp_lt ho)]
    intro k hk hlt
    simp only [Vector.getElem_set]
    split_ifs with he
    · exact pc_add_toNat_le hpc 2
    · exact hs k hk (by simp only at hlt; omega)
  have hstack : (effect s i).stack = s.stack := not_not.1 fun h => hcall (effect_stack_of_ne h)
  have hsp : (effect s i).sp.val ≤ s.sp.val := by
    by_cases h : (effect s i).sp = s.sp
    · rw [h]
    · obtain ⟨ign, rfl⟩ := (effect_sp_of_ne h).resolve_left hcall
      rw [effect_ret (ret_sp_pos ho)]; exact Nat.sub_le ..
  intro k hk hlt
  simpa only [hstack] using hs k hk (hlt.trans_le hsp)

/-! ### A step -/

/-- R263: the record of a fault names the pc and, but for the fetch, the word. -/
theorem faulted_inv (h : s.Inv) (hc : s.tabledFault = some c) : (s.faulted c).Inv := by
  refine ⟨h.paramsOk, h.memOk, h.pcOk, h.stackOk, rfl, ?_⟩
  have hm : c = .memFetch ↔ s.fetch = none := by
    rw [← tabledFault_eq_memFetch_iff, hc, Option.some_inj]
  show s.fetch = if c = .memFetch then none else some (s.fetch.getD s.currentOpcode)
  cases hf : s.fetch <;> simp_all

/-- R39: an effect leaves Running, or it blocks on the FX0A at the pc. -/
theorem effect_estateOk (hr : s.estate = .running) (hf : s.fetch = some s.currentOpcode)
    (hw : encode i = s.currentOpcode) : (effect s i).EstateOk := by
  by_cases hk : ∃ x, i = .ldVxK x
  · obtain ⟨x, rfl⟩ := hk
    exact ⟨hw.symm, hw ▸ hf⟩
  · have he := effect_estate_of_ne_ldVxK (s := s) fun x hx => hk ⟨x, hx⟩
    rw [State.EstateOk, he, hr]
    trivial

theorem effect_inv (h : s.Inv) (hr : s.estate = .running) (hf : s.fetch = some s.currentOpcode)
    (hw : encode i = s.currentOpcode) (ho : ownFault s i = none) : (effect s i).Inv where
  paramsOk := effect_params s i ▸ h.paramsOk
  memOk := effect_memWf h.memOk ho
  pcOk := effect_pc_le (State.fetch_pc_le hf) h.stackOk ho
  stackOk := effect_stackOk (State.fetch_pc_le hf) h.stackOk ho
  estateOk := effect_estateOk hr hf hw

theorem latch_inv (h : s.Inv) (hr : s.estate = .running) (w : Word) : (s.latch w).Inv :=
  ⟨h.paramsOk, h.memOk, h.pcOk, h.stackOk, by rw [State.EstateOk, State.latch_estate, hr]; trivial⟩

/-- Every step answers a next state, and keeps the invariant. -/
theorem step_keeps_inv (h : s.Inv) : ∃ t, step s = .next t ∧ t.Inv := by
  by_cases hr : s.estate = .running
  · obtain ⟨c, hc, hs⟩ | ⟨w, i, hf, hd, ho, hs⟩ := step_cases hr
    · exact ⟨_, hs, faulted_inv h hc⟩
    · obtain ⟨hw, -⟩ := isOf_of_decodeWord hd
      exact ⟨_, hs, effect_inv (latch_inv h hr w) hr hf hw ((ownFault_latch s w i).trans ho)⟩
  · exact ⟨s, step_of_not_running hr, h⟩

/-! ### The host's transactions -/

theorem resetWith_inv {p : Params} (hp : p.wellFormed = true) (n : Nat) : (State.resetWith p n).Inv where
  paramsOk := hp
  memOk := rfl
  pcOk := show (0x200 : Word).toNat ≤ 0x10FE by decide
  stackOk := fun _ _ h => absurd h (Nat.not_lt_zero _)
  estateOk := trivial

theorem setKey_inv (h : s.Inv) (k : Nibble) (b : Bool) : (s.setKey k b).Inv :=
  ⟨h.paramsOk, h.memOk, h.pcOk, h.stackOk, h.estateOk⟩

/-- R236: the pc of a blocked engine is that of its FX0A, so there is room for the next word's address. -/
theorem completeKeyWait_inv {x : Nibble} (h : s.Inv) (he : s.estate = .blocked x) (k : Nibble) :
    (s.completeKeyWait x k).Inv := by
  have hok := h.estateOk
  rw [State.EstateOk, he] at hok
  obtain ⟨-, hf⟩ := hok
  exact ⟨h.paramsOk, h.memOk, (pc_add_toNat_le (State.fetch_pc_le hf) _).trans (by decide), h.stackOk, trivial⟩

theorem doPress_inv (h : s.Inv) (k : Nibble) : (s.doPress k).Inv := by
  unfold State.doPress
  split
  next x he =>
    split
    · exact setKey_inv h k true
    · exact completeKeyWait_inv h he k
  · exact setKey_inv h k true
  · exact setKey_inv h k true

/-- What `load` can answer (R271). -/
theorem doLoad_eq_next {rom : List Byte} {out : Response} (h : doLoad rom s = .next (t, out)) :
    s = s.doReset ∧ (rom.length ≤ 3584 ∧ t = s.putBytes 0x200 rom ∧ out = .loadOk ∨
      3584 < rom.length ∧ t = s ∧ out = .loadRejected) := by
  unfold doLoad at h
  split_ifs at h with hj hw <;> cases h
  · exact ⟨of_decide_eq_true hj, .inl ⟨of_decide_eq_true hw, rfl, rfl⟩⟩
  · exact ⟨of_decide_eq_true hj, .inr ⟨by simpa [romWellFormed] using hw, rfl, rfl⟩⟩

theorem putBytes_inv {a : Nat} {bs : List Byte} (h : s.Inv) (hr : s.estate = .running)
    (ha : a + bs.length ≤ 4096) : (s.putBytes a bs).Inv where
  paramsOk := by rw [State.putBytes_params]; exact h.paramsOk
  memOk := s.putBytes_memWf a bs h.memOk ha
  pcOk := by rw [State.putBytes_pc]; exact h.pcOk
  stackOk := by
    intro k hk
    rw [State.putBytes_sp, State.putBytes_stack]
    exact h.stackOk k hk
  estateOk := by rw [State.EstateOk, State.putBytes_estate, hr]; trivial

theorem doLoad_inv {rom : List Byte} {out : Response} (h : s.Inv) (ht : doLoad rom s = .next (t, out)) : t.Inv := by
  obtain ⟨hj, ⟨hlen, rfl, -⟩ | ⟨-, rfl, -⟩⟩ := doLoad_eq_next ht
  · have hr : s.estate = .running := by rw [hj]; rfl
    exact putBytes_inv h hr (by omega)
  · exact h

theorem withRand8_inv (h : s.Inv) (b : Byte) : (s.withRand8 b).Inv :=
  ⟨h.paramsOk, h.memOk, h.pcOk, h.stackOk, h.estateOk⟩

theorem dropRand8_inv (h : s.Inv) : s.dropRand8.Inv :=
  ⟨h.paramsOk, h.memOk, h.pcOk, h.stackOk, h.estateOk⟩

theorem doStep_inv {b : Byte} {out : Response} (h : s.Inv) (ht : transact (.step b) s = .next (t, out)) : t.Inv := by
  obtain ⟨u, hu, hinv⟩ := step_keeps_inv (withRand8_inv h b)
  rw [transact_step hu] at ht
  cases ht
  exact dropRand8_inv hinv

theorem transact_keeps_inv {τ : Transaction} {out : Response} (h : s.Inv) (ht : transact τ s = .next (t, out)) :
    t.Inv := by
  cases τ with
  | reset => cases ht; exact resetWith_inv h.paramsOk s.draws
  | load rom => exact doLoad_inv h ht
  | step b => exact doStep_inv h ht
  | displayRead => cases ht; exact ⟨h.paramsOk, h.memOk, h.pcOk, h.stackOk, h.estateOk⟩
  | press k => cases ht; exact doPress_inv h k
  | release k => cases ht; exact setKey_inv h k false
  | tick => cases ht; exact ⟨h.paramsOk, h.memOk, h.pcOk, h.stackOk, h.estateOk⟩
  | soundRead => cases ht; exact h

/-! ### Runs (R307) -/

/-- A run of one transaction and more, taken apart. -/
theorem runTransactions_cons_eq_next {τ : Transaction} {τs : List Transaction} {outs : List Response}
    (h : runTransactions (τ :: τs) s = .next (t, outs)) :
    ∃ u out outs', transact τ s = .next (u, out) ∧ runTransactions τs u = .next (t, outs') ∧ outs = out :: outs' := by
  rw [runTransactions] at h
  split at h
  next u out hu =>
    split at h <;> cases h
    next outs' ho => exact ⟨u, out, outs', hu, ho, rfl⟩
  · cases h
  · cases h

theorem runTransactions_keeps_inv {τs : List Transaction} {outs : List Response} (h : s.Inv)
    (ht : runTransactions τs s = .next (t, outs)) : t.Inv := by
  induction τs generalizing s outs with
  | nil => cases ht; exact h
  | cons τ τs ih =>
    obtain ⟨u, out, outs', hu, hrest, -⟩ := runTransactions_cons_eq_next ht
    exact ih (transact_keeps_inv h hu) hrest

end Sys2Proof.Machine
end

section
open Sys2Proof Sys2Proof.Machine

/-- Settles O48: the default font lies in the reserved area, memory lists no cell, and the stack is empty. -/
theorem resetMeetsTheInvariant : Obligations.ResetMeetsTheInvariant :=
  resetWith_inv (by decide) 0

/-- Settles O49: a step is the identity, a tabled fault or an effect, and each keeps the invariant. -/
theorem everyStepKeepsTheInvariant : Obligations.EveryStepKeepsTheInvariant := by
  intro s h
  exact step_keeps_inv h

/-- Settles O50, by induction on the run: each transaction keeps the invariant. -/
theorem everyRunKeepsTheInvariant : Obligations.EveryRunKeepsTheInvariant := by
  intro τs s t outs h ht
  exact runTransactions_keeps_inv h ht
end

section
/-! The host's transactions (spec/60_exceptions.md R270 to R281): what each does to the engine state, a program
loaded, and the tick. -/

namespace Sys2Proof.Machine

variable {s t : State} {i : Instr} {τ : Transaction} {out : Response} {r : FaultRecord}

/-! ### The step transaction -/

theorem step_next (s : State) : ∃ t, step s = .next t := by
  by_cases hr : s.estate = .running
  · obtain ⟨c, -, h⟩ | ⟨w, i, -, -, -, h⟩ := step_cases hr <;> exact ⟨_, h⟩
  · exact ⟨s, step_of_not_running hr⟩

/-- The fault table does not read the host's byte. -/
theorem tabledFault_withRand8 (s : State) (b : Byte) : (s.withRand8 b).tabledFault = s.tabledFault := by
  simp only [State.tabledFault, withRand8_fetch, withRand8_params, ownFault_withRand8]

theorem transact_step_of_not_running {b : Byte} (h : s.estate ≠ .running) :
    transact (.step b) s = .next ((s.withRand8 b).dropRand8, .stepped s.estate) :=
  transact_step (step_of_not_running h)

/-! ### Key events -/

theorem doPress_of_not_blocked {k : Nibble} (h : (∀ x, s.estate ≠ .blocked x) ∨ s.keyDown k = true) :
    s.doPress k = s.setKey k true := by
  unfold State.doPress
  split
  next x he => exact if_pos (h.resolve_left fun hn => hn x he)
  · rfl
  · rfl

theorem doPress_of_blocked {x k : Nibble} (he : s.estate = .blocked x) (hk : s.keyDown k = false) :
    s.doPress k = s.completeKeyWait x k := by
  simp [State.doPress, he, hk]

/-- R234: a key event that is no awaited edge changes that key and nothing else. -/
theorem setKey_spec (s : State) (k : Nibble) (b : Bool) :
    (s.setKey k b).keyDown k = b ∧ (∀ l, l ≠ k → (s.setKey k b).keyDown l = s.keyDown l) ∧
      SameMemory s (s.setKey k b) ∧ { s.setKey k b with key := s.key } = s :=
  ⟨(s.keyDown_setKey k k b).trans (if_pos rfl), fun l hl => (s.keyDown_setKey k l b).trans (if_neg hl),
    s.setKey_byteAt k b, rfl⟩

/-! ### Load -/

theorem doReset_estate (s : State) : s.doReset.estate = .running := rfl

theorem running_of_doLoad {rom : List Byte} (h : doLoad rom s = .next (t, out)) : s.estate = .running := by
  obtain ⟨hj, -⟩ := doLoad_eq_next h
  rw [hj, doReset_estate]

theorem doLoad_of_eq_doReset {rom : List Byte} (h : s = s.doReset) : doLoad rom s =
    if romWellFormed rom then .next (s.putBytes 0x200 rom, .loadOk) else .next (s, .loadRejected) :=
  if_pos (decide_eq_true h)

/-- R33, R42: the default font lies at address 0. -/
theorem reset_byteAt (a : Nat) : State.reset.byteAt a = if h : a < 80 then defaultFontData[a] else 0 := by
  show resetByte defaultParams a = _
  simp [resetByte, defaultParams]

theorem reset_font_bytes : (List.range 80).map State.reset.byteAt = defaultFontData.toList := by
  refine List.ext_getElem (by simp) fun a ha _ => ?_
  have ha : a < 80 := by simpa using ha
  simp [reset_byteAt, ha]

/-! ### The engine state under a transaction -/

/-- R277, R280: what a transaction does to a blocked engine. -/
theorem transact_of_blocked {x : Nibble} (he : s.estate = .blocked x) (h : transact τ s = .next (t, out)) :
    (t.estate = .blocked x ∧ t.pc = s.pc ∧ t.v = s.v ∧ (∀ b, τ = .step b → out = .stepped (.blocked x))) ∨
      τ = .reset ∨ (∃ k, τ = .press k ∧ s.keyDown k = false) := by
  cases τ with
  | reset => exact .inr (.inl rfl)
  | load rom => cases he.symm.trans (running_of_doLoad h)
  | step b =>
    rw [transact_step_of_not_running (by rw [he]; nofun), he] at h
    cases h
    exact .inl ⟨he, rfl, rfl, fun _ _ => rfl⟩
  | press k =>
    cases hk : s.keyDown k with
    | false => exact .inr (.inr ⟨k, rfl, hk⟩)
    | true =>
      rw [transact, doPress_of_not_blocked (.inr hk)] at h
      cases h
      exact .inl ⟨he, rfl, rfl, nofun⟩
  | displayRead | release k | tick | soundRead =>
    cases h
    exact .inl ⟨he, rfl, rfl, nofun⟩

/-- What the fault state keeps (R267). -/
structure StaysFaulted (r : FaultRecord) (s t : State) : Prop where
  estate : t.estate = .fault r
  v : t.v = s.v
  pc : t.pc = s.pc
  mem : SameMemory s t

/-- R267: a transaction other than a reset keeps the fault, and a step returns its record. -/
theorem transact_of_fault (he : s.estate = .fault r) (hτ : τ ≠ .reset) (h : transact τ s = .next (t, out)) :
    StaysFaulted r s t ∧ ∀ e, out = .stepped e → e = .fault r := by
  cases τ with
  | reset => exact absurd rfl hτ
  | load rom => cases he.symm.trans (running_of_doLoad h)
  | step b =>
    rw [transact_step_of_not_running (by rw [he]; nofun), he] at h
    cases h
    exact ⟨⟨he, rfl, rfl, fun _ => rfl⟩, fun e h => (Response.stepped.inj h).symm⟩
  | press k =>
    rw [transact, doPress_of_not_blocked (.inl (by rw [he]; nofun))] at h
    cases h
    exact ⟨⟨he, rfl, rfl, fun _ => rfl⟩, nofun⟩
  | displayRead | release k | tick | soundRead =>
    cases h
    exact ⟨⟨he, rfl, rfl, fun _ => rfl⟩, nofun⟩

theorem runTransactions_of_fault {τs : List Transaction} {outs : List Response} (he : s.estate = .fault r)
    (hτs : Transaction.reset ∉ τs) (h : runTransactions τs s = .next (t, outs)) :
    StaysFaulted r s t ∧ ∀ e, Response.stepped e ∈ outs → e = .fault r := by
  induction τs generalizing s outs with
  | nil => cases h; exact ⟨⟨he, rfl, rfl, fun _ => rfl⟩, nofun⟩
  | cons τ τs ih =>
    obtain ⟨hτ, hτs⟩ := List.ne_and_not_mem_of_not_mem_cons hτs
    obtain ⟨u, out, outs', hu, hrest, rfl⟩ := runTransactions_cons_eq_next h
    obtain ⟨hsu, hout⟩ := transact_of_fault he hτ.symm hu
    obtain ⟨hut, houts⟩ := ih hsu.estate hτs hrest
    refine ⟨⟨hut.estate, hut.v.trans hsu.v, hut.pc.trans hsu.pc, fun a => (hut.mem a).trans (hsu.mem a)⟩, ?_⟩
    intro e hmem
    obtain h | h := List.mem_cons.1 hmem
    · exact hout e h.symm
    · exact houts e h

/-! ### Tick -/

/-- R30, R275: the timer's truncated predecessor. -/
theorem countDown_toNat (b : Byte) : (countDown b).toNat = b.toNat - 1 := by
  unfold countDown
  split_ifs with h
  · exact BitVec.toNat_sub_of_le (y := 1#8) h
  · omega

theorem State.doTick_params (s : State) : s.doTick.params = s.params := rfl

theorem State.putBytes_doTick (s : State) (a : Nat) (bs : List Byte) :
    s.doTick.putBytes a bs = (s.putBytes a bs).doTick := by
  induction bs generalizing s a with
  | nil => rfl
  | cons b bs ih => exact ih (s.putByte a b) (a + 1)

theorem State.setRegsFrom_doTick (s : State) (k : Nat) (bs : List Byte) :
    s.doTick.setRegsFrom k bs = (s.setRegsFrom k bs).doTick := by
  induction bs generalizing s k with
  | nil => rfl
  | cons b bs ih => exact ih (s.setReg (BitVec.ofNat 4 k) b) (k + 1)

theorem State.commit_doTick (s : State) (x : Nibble) (r : Byte × Bool) :
    s.doTick.commit x r = (s.commit x r).doTick := by
  simp only [State.commit, State.doTick_params]
  cases s.params.flagOrder <;> rfl

theorem State.advanceIndex_doTick (s : State) (n : Nat) : s.doTick.advanceIndex n = (s.advanceIndex n).doTick := by
  simp only [State.advanceIndex, State.doTick_params]
  cases s.params.indexAdvance <;> rfl

/-- The instructions that touch a timer (R233, R238, R239). -/
def touchesTimer : Instr → Bool
  | .ldVxDt _ | .ldDtVx _ | .ldStVx _ => true
  | _ => false

theorem touchesTimer_eq_false (h : ∀ x, i ≠ .ldVxDt x ∧ i ≠ .ldDtVx x ∧ i ≠ .ldStVx x) : touchesTimer i = false := by
  cases i <;> simp [touchesTimer] at h ⊢

theorem ownFault_doTick (s : State) (i : Instr) : ownFault s.doTick i = ownFault s i := by
  cases i <;> rfl

theorem tabledFault_doTick (s : State) : s.doTick.tabledFault = s.tabledFault := by
  have hf : s.doTick.fetch = s.fetch := rfl
  simp only [State.tabledFault, hf, State.doTick_params, ownFault_doTick]

/-- R275, R276: an effect that touches no timer commutes with a tick. -/
theorem effect_doTick (ho : ownFault s i = none) (hi : touchesTimer i = false) :
    effect s.doTick i = (effect s i).doTick := by
  cases i <;> simp only [touchesTimer, reduceCtorEq] at hi
  case ret =>
    have hsp := ret_sp_pos ho
    rw [effect_ret hsp]
    exact effect_ret (s := s.doTick) hsp
  case call =>
    have hsp := call_sp_lt ho
    rw [effect_call hsp]
    exact effect_call (s := s.doTick) hsp
  case skp =>
    obtain ⟨k, hk⟩ := keyIdx_some_of_ownFault ho
    rw [effect_skp_of_keyIdx hk]
    exact effect_skp_of_keyIdx (s := s.doTick) hk
  case sknp =>
    obtain ⟨k, hk⟩ := keyIdx_some_of_ownFault ho
    rw [effect_sknp_of_keyIdx hk]
    exact effect_sknp_of_keyIdx (s := s.doTick) hk
  case addReg | sub | shr | subn | shl => exact congrArg State.advance (s.commit_doTick _ _)
  case ldB => exact congrArg State.advance (s.putBytes_doTick _ _)
  case ldMemI =>
    rw [effect, State.putBytes_doTick, State.advanceIndex_doTick]
    rfl
  case ldIMem =>
    rw [effect, State.setRegsFrom_doTick, State.advanceIndex_doTick]
    rfl
  all_goals rfl

end Sys2Proof.Machine
end

section
open Sys2Proof Sys2Proof.Machine

/-- Settles O41: only a press of a key that is up completes a key wait; every other key event is one write of a key
flag. -/
theorem keyEdgeCompletesTheWait : Obligations.KeyEdgeCompletesTheWait := by
  intro k s
  refine ⟨fun x he hk => ?_, fun h => ?_, ⟨_, rfl, setKey_spec s k false⟩⟩
  · have hx : ((s.completeKeyWait x k).reg x).toNat = k.toNat := by
      show (((s.setKey k true).setReg x (k.setWidth 8)).reg x).toNat = k.toNat
      rw [State.reg_setReg, if_pos rfl, BitVec.toNat_setWidth_of_le (by decide)]
    obtain ⟨hdown, hother, hmem, -⟩ := setKey_spec s k true
    exact ⟨s.completeKeyWait x k, by rw [transact, doPress_of_blocked he hk], hdown, hx, rfl, rfl,
      fun j hj => State.reg_setReg_ne (s.setKey k true) _ hj, hother, hmem, rfl⟩
  · exact ⟨_, by rw [transact, doPress_of_not_blocked h], setKey_spec s k true⟩

/-- Settles O42, transaction by transaction: a load is refused while the engine is blocked, and a step does nothing. -/
theorem onlyAKeyEdgeOrResetEndsTheWait : Obligations.OnlyAKeyEdgeOrResetEndsTheWait := by
  intro τ s t out x he h
  exact transact_of_blocked he h

/-- Settles O43: both timers count down in one update. -/
theorem tickCountsBothTimersDown : Obligations.TickCountsBothTimersDown := by
  intro s
  exact ⟨s.doTick, rfl, countDown_toNat s.dt, countDown_toNat s.st, fun _ => rfl, rfl⟩

/-- Settles O44: both are read off the state as they stand. -/
theorem hostReadsDisplayAndSound : Obligations.HostReadsDisplayAndSound := by
  intro s
  exact ⟨rfl, rfl⟩

/-- Settles O57: the step answers a next state whose engine state is that of the tabled fault or of the effect. -/
theorem stepTransactionAnswersTheEngineState : Obligations.StepTransactionAnswersTheEngineState := by
  intro b s
  obtain ⟨t, ht⟩ := step_next (s.withRand8 b)
  refine ⟨t, ht, transact_step ht, fun h => ?_, fun hr => ⟨fun c hc => ?_, fun w i hf hd ho => ?_⟩⟩
  · exact Host.Outcome.next.inj (ht.symm.trans (step_of_not_running h))
  · rw [step_of_tabledFault (s := s.withRand8 b) hr ((tabledFault_withRand8 s b).trans hc)] at ht
    cases ht
    rfl
  · rw [step_effect (s := s.withRand8 b) hr hf hd ((ownFault_withRand8 s b i).trans ho)] at ht
    cases ht
    exact ⟨fun x hx => hx ▸ effect_ldVxK_estate x, fun h => (effect_estate_of_ne_ldVxK h).trans hr⟩

/-- Settles O45: right after reset memory lists no cell, so the program's bytes read back; on any other state the test
for it fails. -/
theorem loadCopiesTheProgramAfterReset : Obligations.LoadCopiesTheProgramAfterReset := by
  refine ⟨fun p n rom => ?_, fun s rom h => if_neg fun hj => h (of_decide_eq_true hj)⟩
  have hload : transact (.load rom) (State.resetWith p n) = _ := doLoad_of_eq_doReset rfl
  rw [hload]
  constructor
  · intro hlen
    refine ⟨_, if_pos (decide_eq_true hlen), ?_, ?_, State.putBytes_frame (State.resetWith p n) 0x200 rom⟩
    · exact State.byteAt_putBytes_inside _ 0x200 rom rfl (by omega)
    · exact State.byteAt_putBytes_outside _ 0x200 rom
  · intro hlen
    exact if_neg (by simpa [romWellFormed] using hlen)

/-- Settles O46, component by component; the font bytes are the default `FONT_DATA`. -/
theorem resetLeavesTheStatedValues : Obligations.ResetLeavesTheStatedValues := by
  refine ⟨fun j => ?_, rfl, rfl, rfl, fun k hk => ?_, rfl, rfl, Display.pixel_clear, rfl, fun k => ?_, rfl, rfl,
    fun a ha => ?_, ?_, fun s => ⟨_, rfl, rfl, rfl, rfl⟩⟩
  · simp [State.reset, State.resetWith, State.reg]
  · simp [State.reset, State.resetWith]
  · simp [State.reset, State.resetWith, State.keyDown]
  · rw [reset_byteAt, dif_neg (Nat.not_lt.2 ha)]
  · rw [reset_font_bytes]; rfl

/-- Settles O47, by induction on the run: no transaction but a reset leaves the fault state. -/
theorem onlyResetLeavesTheFaultState : Obligations.OnlyResetLeavesTheFaultState := by
  intro τs s t outs r he hτs h
  obtain ⟨⟨hes, hv, hpc, hmem⟩, houts⟩ := runTransactions_of_fault he hτs h
  exact ⟨hes, hv, hpc, hmem, houts, t.doReset, rfl, rfl⟩

/-- Settles O56: a tick changes neither the fault of a step nor, where the instruction touches no timer, its effect. -/
theorem ticksCommuteWithStepsThatTouchNoTimer : Obligations.TicksCommuteWithStepsThatTouchNoTimer := by
  intro s htimer
  by_cases hr : s.estate = .running
  · obtain ⟨c, hc, hs⟩ | ⟨w, i, hf, hd, ho, hs⟩ := step_cases hr
    · exact ⟨_, hs, step_of_tabledFault (s := s.doTick) hr ((tabledFault_doTick s).trans hc)⟩
    · have hi : touchesTimer i = false := touchesTimer_eq_false fun x => by simpa [hd] using htimer w hf x
      have hl : ownFault (s.latch w) i = none := (ownFault_latch s w i).trans ho
      refine ⟨_, hs, (step_effect (s := s.doTick) hr hf hd ((ownFault_doTick s i).trans ho)).trans ?_⟩
      exact congrArg Host.Outcome.next (effect_doTick hl hi)
  · exact ⟨s, step_of_not_running hr, step_of_not_running (s := s.doTick) hr⟩
end

section
/-! Instructions (spec/41_control_flow.md to spec/45_input_timers.md): results as exact arithmetic, the bytes and
registers a dump and a load move, the pixels of a draw, and the key a skip looks at. -/

namespace Sys2Proof.Machine

variable {s t : State} {i : Instr}

/-! ### Results and flags as numbers (R149 to R152) -/

/-- R141, with the result and the flag read as numbers. -/
theorem exec_commit_toNat_spec {x : Nibble} {r : Byte × Bool} {n f : Nat}
    (he : exec i s = .next (s.commit x r).advance) (hn : r.1.toNat = n) (hf : (flagByte r.2).toNat = f) :
    ∃ t, exec i s = .next t ∧ (x ≠ 0xF#4 → (t.reg x).toNat = n ∧ (t.reg 0xF#4).toNat = f) ∧
      (x = 0xF#4 → s.params.flagOrder = .flagThenDest → (t.reg 0xF#4).toNat = n) ∧
      (x = 0xF#4 → s.params.flagOrder = .destThenFlag → (t.reg 0xF#4).toNat = f) ∧
      (∀ j, j ≠ x → j ≠ 0xF#4 → t.reg j = s.reg j) ∧ t.pc = s.pc + 2 ∧ SameMemory s t ∧
      { t with v := s.v, pc := s.pc } = s := by
  obtain ⟨t, ht, hne, hdest, hflag, frame⟩ := exec_commit_spec he
  refine ⟨t, ht, fun h => ?_, fun h ho => hdest h ho ▸ hn, fun h ho => hflag h ho ▸ hf, frame⟩
  obtain ⟨hx, hvf⟩ := hne h
  exact ⟨hx ▸ hn, hvf ▸ hf⟩

/-- R149, R151: the difference of exact integers mod 256 and the strict comparison. -/
theorem exec_sub_spec {x : Nibble} {a b : Byte} (he : exec i s = .next (s.commit x (subResult a b)).advance) :
    ∃ t, exec i s = .next t ∧
      (x ≠ 0xF#4 → ((t.reg x).toNat : Int) = ((a.toNat : Int) - b.toNat) % 256 ∧
        t.reg 0xF#4 = if a.toNat > b.toNat then 1 else 0) ∧
      (x = 0xF#4 → s.params.flagOrder = .flagThenDest →
        ((t.reg 0xF#4).toNat : Int) = ((a.toNat : Int) - b.toNat) % 256) ∧
      (x = 0xF#4 → s.params.flagOrder = .destThenFlag → t.reg 0xF#4 = if a.toNat > b.toNat then 1 else 0) ∧
      (∀ j, j ≠ x → j ≠ 0xF#4 → t.reg j = s.reg j) ∧ t.pc = s.pc + 2 ∧ SameMemory s t ∧
      { t with v := s.v, pc := s.pc } = s := by
  obtain ⟨t, ht, hne, hdest, hflag, frame⟩ := exec_commit_spec he
  have hf : flagByte (subResult a b).2 = if a.toNat > b.toNat then 1 else 0 := flagByte_decide _
  rw [hf] at hne hflag
  refine ⟨t, ht, fun h => ?_, fun h ho => hdest h ho ▸ toNat_sub_int a b, hflag, frame⟩
  obtain ⟨hx, hvf⟩ := hne h
  exact ⟨hx ▸ toNat_sub_int a b, hvf⟩

theorem shrResult_fst_toNat (a : Byte) : (shrResult a).1.toNat = a.toNat / 2 := by
  simp [shrResult, Nat.shiftRight_eq_div_pow]

theorem shlResult_fst_toNat (a : Byte) : (shlResult a).1.toNat = a.toNat * 2 % 256 := by
  simp [shlResult, Nat.shiftLeft_eq]

/-! ### The index advance (R184, R185) -/

theorem State.advanceIndex_index_of_none (h : s.params.indexAdvance = .none) (n : Nat) :
    (s.advanceIndex n).index = s.index := by
  simp [State.advanceIndex, h]

theorem State.advanceIndex_index_toNat (h : s.params.indexAdvance = .xPlus1) {n : Nat}
    (hn : s.index.toNat + n < 65536) : (s.advanceIndex n).index.toNat = s.index.toNat + n := by
  simp only [State.advanceIndex, h, State.setIndex_index, BitVec.toNat_add, BitVec.toNat_ofNat]
  omega

/-- The advance writes I and nothing else. -/
theorem State.advanceIndex_eq_setIndex (s : State) (n : Nat) : ∃ w, s.advanceIndex n = s.setIndex w := by
  unfold State.advanceIndex
  split
  · exact ⟨s.index, rfl⟩
  · exact ⟨_, rfl⟩

/-! ### Dump and load (R184, R185) -/

theorem State.byteAt_dump (hm : s.memWf) {x : Nibble} (h : s.ea + x.toNat ≤ 0xFFF) {j : Nibble}
    (hj : j.toNat ≤ x.toNat) : (s.putBytes s.ea (s.regsUpTo x)).byteAt (s.ea + j.toNat) = s.reg j := by
  have hlen := s.regsUpTo_length x
  rw [State.byteAt_putBytes_inside s _ _ hm (by omega) j.toNat (by omega), State.regsUpTo_getElem,
    BitVec.ofNat_toNat, BitVec.setWidth_eq]

theorem State.setRegsFrom_frame (s : State) (k : Nat) (bs : List Byte) : { s.setRegsFrom k bs with v := s.v } = s := by
  induction bs generalizing s k with
  | nil => rfl
  | cons b bs ih =>
    exact congrArg (fun t : State => { t with v := s.v }) (ih (s.setReg (BitVec.ofNat 4 k) b) (k + 1))

/-- The bytes FX65 reads. -/
def State.loadBytes (s : State) (x : Nibble) : List Byte :=
  (List.range (x.toNat + 1)).map (fun k => s.byteAt (s.ea + k))

theorem State.loadBytes_length (s : State) (x : Nibble) : (s.loadBytes x).length = x.toNat + 1 := by
  simp [State.loadBytes]

theorem State.reg_load_of_le {x j : Nibble} (hj : j.toNat ≤ x.toNat) :
    (s.setRegsFrom 0 (s.loadBytes x)).reg j = s.byteAt (s.ea + j.toNat) := by
  have hlen := s.loadBytes_length x
  have hx := x.isLt
  rw [State.reg_setRegsFrom s 0 _ (by omega), dif_pos (by omega)]
  simp [State.loadBytes]

theorem State.reg_load_of_lt {x j : Nibble} (hj : x.toNat < j.toNat) :
    (s.setRegsFrom 0 (s.loadBytes x)).reg j = s.reg j := by
  have hlen := s.loadBytes_length x
  have hx := x.isLt
  exact State.reg_setRegsFrom_zero_of_le (by omega) (by omega)

theorem exec_ldMemI_of_le {x : Nibble} (h : s.index.toNat + x.toNat ≤ 0xFFF) : exec (.ldMemI x) s =
    .next ((s.putBytes s.ea (s.regsUpTo x)).advanceIndex (x.toNat + 1)).advance :=
  exec_of_noFault (if_neg (by omega))

theorem exec_ldIMem_of_le {x : Nibble} (h : s.index.toNat + x.toNat ≤ 0xFFF) : exec (.ldIMem x) s =
    .next ((s.setRegsFrom 0 (s.loadBytes x)).advanceIndex (x.toNat + 1)).advance :=
  exec_of_noFault (if_neg (by omega))

/-! ### Draw (R211 to R214) -/

/-- The display and the collision after a draw. -/
def State.drawn (s : State) (x y n : Nibble) : Display × Bool :=
  drawRows (s.reg x) (s.reg y) 0 (s.spriteRows n) (s.disp, false)

theorem exec_drw_of_le {x y n : Nibble} (h : n.toNat = 0 ∨ s.index.toNat + n.toNat - 1 ≤ 0xFFF) :
    exec (.drw x y n) s =
      .next ((s.show (s.drawn x y n).1).setReg 0xF#4 (flagByte (s.drawn x y n).2)).advance :=
  exec_of_noFault (if_neg (by omega))

theorem drawn_pixel_of_covers {x y n : Nibble} {px : Fin 64} {py : Fin 32} (h : SpriteCovers s x y n px py) :
    (s.drawn x y n).1.pixel px py = !s.disp.pixel px py :=
  (drawn_pixel x y n s px py).trans (if_pos ((mem_lit_iff_spriteCovers s x y n px py).2 h))

theorem drawn_pixel_of_not_covers {x y n : Nibble} {px : Fin 64} {py : Fin 32} (h : ¬ SpriteCovers s x y n px py) :
    (s.drawn x y n).1.pixel px py = s.disp.pixel px py :=
  (drawn_pixel x y n s px py).trans (if_neg fun hm => h ((mem_lit_iff_spriteCovers s x y n px py).1 hm))

theorem flag_of_collision {x y n : Nibble} (h : ∃ px py, SpriteCovers s x y n px py ∧ s.disp.pixel px py = true) :
    flagByte (s.drawn x y n).2 = 1 := by
  rw [State.drawn, (drawn_collision x y n s).2 h]; rfl

theorem flag_of_no_collision {x y n : Nibble}
    (h : ∀ px py, SpriteCovers s x y n px py → s.disp.pixel px py = false) : flagByte (s.drawn x y n).2 = 0 := by
  have : (s.drawn x y n).2 = false := by
    rw [Bool.eq_false_iff]
    intro hc
    obtain ⟨px, py, hcov, hset⟩ := (drawn_collision x y n s).1 hc
    rw [h px py hcov] at hset
    cases hset
  rw [this]; rfl

/-- The pixels under a sprite depend on I, the two coordinates and the sprite's bytes only. -/
theorem spriteCovers_congr {x y n : Nibble} (hi : t.index = s.index) (hx : t.reg x = s.reg x) (hy : t.reg y = s.reg y)
    (hm : SameMemory s t) (px : Fin 64) (py : Fin 32) : SpriteCovers t x y n px py ↔ SpriteCovers s x y n px py := by
  simp only [SpriteCovers, hi, hx, hy, hm _]

/-! ### Keys (R230 to R232) -/

theorem keyIdx_eq_some {p : KeyIndexPolicy} {b : Byte} {k : Nibble}
    (h : b.toNat = k.toNat ∨ p = .mod16 ∧ b.toNat % 16 = k.toNat) : keyIdx p b = some k := by
  have hk := k.isLt
  have hmod : b.toNat % 16 = k.toNat := by omega
  unfold keyIdx
  split_ifs with hb
  · simp [nibble_eq_of_toNat, hmod]
  · obtain ⟨rfl, -⟩ := h.resolve_left (by omega)
    simp [hmod]

theorem exec_skp_of_keyIdx {x k : Nibble} (hk : keyIdx s.params.keyIndexPolicy (s.reg x) = some k) :
    exec (.skp x) s = .next (s.skipIf (s.keyDown k)) := by
  simp only [exec, execSkp, hk]

theorem exec_sknp_of_keyIdx {x k : Nibble} (hk : keyIdx s.params.keyIndexPolicy (s.reg x) = some k) :
    exec (.sknp x) s = .next (s.skipIf (!s.keyDown k)) := by
  simp only [exec, execSknp, hk]

end Sys2Proof.Machine
end

section
open Sys2Proof Sys2Proof.Machine

/-- Settles O13: the return reads the entry the call pushed. -/
theorem callThenReturnRestoresPcAndSp : Obligations.CallThenReturnRestoresPcAndSp := by
  intro nnn ign s h
  refine ⟨_, exec_call_of_lt h, fun u hsp hstack => ?_⟩
  have hval : u.sp.val = s.sp.val + 1 := congrArg Fin.val hsp
  refine ⟨_, exec_ret_of_pos (by omega), ?_, ?_⟩
  · show u.stack[u.sp.val - 1] = s.pc + 2
    simp only [hval, Nat.add_sub_cancel]
    exact (hstack s.sp.val h (Nat.lt_succ_self _)).trans (Vector.getElem_set_self h)
  · exact Fin.ext (show u.sp.val - 1 = s.sp.val by omega)

/-- Settles O16: the jump cannot fault, and the sum of a byte and an address fits in the pc. -/
theorem indexedJumpAddsV0 : Obligations.IndexedJumpAddsV0 := by
  intro nnn s
  exact ⟨s.setPc (jumpIndexed (s.reg 0) nnn), exec_of_noFault rfl, jumpIndexed_toNat _ _, State.setPc_byteAt s _, rfl⟩

/-- Settles O20: the effect is one write of Vx. -/
theorem orWritesVxOnly : Obligations.OrWritesVxOnly := by
  intro x y s
  exact exec_setReg_spec (exec_of_noFault (i := .or x y) rfl)

/-- Settles O22: the effect is the commit of the sum and the carry, and the later write is the flag's. -/
theorem addIntoVfUnderDestThenFlagLeavesTheCarry : Obligations.AddIntoVfUnderDestThenFlagLeavesTheCarry := by
  intro y s ho
  obtain ⟨t, he, -, -, hflag, hother, frame⟩ := exec_commit_spec (exec_of_noFault (i := .addReg 0xF#4 y) (s := s) rfl)
  exact ⟨t, he, (hflag rfl ho).trans (flagByte_addResult_snd ..), fun j hj => hother j hj hj, frame⟩

/-- Settles O23: each effect is the commit of a difference and the strict comparison. -/
theorem subtractionsSetTheStrictFlag : Obligations.SubtractionsSetTheStrictFlag := by
  intro x y s p hp
  simp only [List.mem_cons, List.not_mem_nil, or_false] at hp
  obtain rfl | rfl := hp
  · exact exec_sub_spec (exec_of_noFault (i := .sub x y) rfl)
  · exact exec_sub_spec (exec_of_noFault (i := .subn x y) rfl)

/-- Settles O24: each effect is the commit of the shifted register and the bit shifted out. -/
theorem shiftsSetTheBitShiftedOut : Obligations.ShiftsSetTheBitShiftedOut := by
  intro x y s p hp
  simp only [List.mem_cons, List.not_mem_nil, or_false] at hp
  obtain rfl | rfl := hp
  · exact exec_commit_toNat_spec (exec_of_noFault (i := .shr x y) rfl) (shrResult_fst_toNat _) (flagByte_bit0 _)
  · exact exec_commit_toNat_spec (exec_of_noFault (i := .shl x y) rfl) (shlResult_fst_toNat _) (flagByte_bit7 _)

/-- Settles O25: the effect uses up the draw and writes the drawn byte under the mask to Vx; the transaction `step` is
that effect on the state that holds the host's byte. -/
theorem randomByteIsAFreeInputUnderTheMask : Obligations.RandomByteIsAFreeInputUnderTheMask := by
  intro x nn s
  have reg_x (u : State) (b : Byte) : (u.setReg x b).reg x = b := (u.reg_setReg x x b).trans (if_pos rfl)
  refine ⟨_, exec_of_noFault rfl, fun b hb => ?_, ?_, fun j hj => State.reg_setReg_ne _ _ hj, rfl, fun _ => rfl, rfl,
    fun b w hr hf hd => ?_⟩
  · rw [effect, State.advance_reg, reg_x, State.drawByte, hb]
  · rw [effect, State.advance_reg, reg_x, BitVec.and_assoc, BitVec.and_self]
  · have hs := step_effect (s := s.withRand8 b) hr hf hd rfl
    have he : (effect ((s.withRand8 b).latch w) (.rnd x nn)).estate = .running := hr
    have ht := transact_step hs
    rw [he] at ht
    exact ⟨_, ht, reg_x _ _, fun j hj => State.reg_setReg_ne _ _ hj, rfl, rfl, rfl, fun _ => rfl, rfl⟩

/-- Settles O27: each effect is one write of I, and a sum of words is the sum mod 65536. -/
theorem indexAdditionAndGlyphAddress : Obligations.IndexAdditionAndGlyphAddress := by
  intro x s p hp
  simp only [List.mem_cons, List.not_mem_nil, or_false] at hp
  obtain rfl | rfl := hp
  · obtain ⟨t, he, hi, frame⟩ := exec_setIndex_spec (exec_of_noFault (i := .addI x) (s := s) rfl)
    refine ⟨t, he, ?_, frame⟩
    rw [hi, BitVec.toNat_add, zextByte, BitVec.toNat_setWidth_of_le (by decide)]
  · obtain ⟨t, he, hi, frame⟩ := exec_setIndex_spec (exec_of_noFault (i := .ldF x) (s := s) rfl)
    exact ⟨t, he, hi ▸ BitVec.toNat_ofNat .., frame⟩

/-- Settles O29: in range the effect is one store of V0..Vx and the index advance, past 0xFFF it is the fault of R261's
table. -/
theorem dumpStoresV0ToVx : Obligations.DumpStoresV0ToVx := by
  intro x s hm
  constructor
  · intro h
    refine ⟨_, exec_ldMemI_of_le h, fun j hj => ?_, fun a ha => ?_, fun ha => ?_, fun ha => ?_, ?_, ?_⟩
    · rw [State.advance_byteAt, State.advanceIndex_byteAt]
      exact State.byteAt_dump hm h hj
    · rw [State.advance_byteAt, State.advanceIndex_byteAt]
      exact State.byteAt_putBytes_outside s _ _ a (by rwa [State.regsUpTo_length])
    · rw [State.advance_index, State.advanceIndex_index_of_none (by simpa using ha), State.putBytes_index]
    · rw [State.advance_index, State.advanceIndex_index_toNat (by simpa using ha) (by simp; omega),
        State.putBytes_index, Nat.add_assoc]
    · simp
    · obtain ⟨w, hw⟩ := (s.putBytes s.ea (s.regsUpTo x)).advanceIndex_eq_setIndex (x.toNat + 1)
      rw [hw]
      exact congrArg (fun t : State => { t with index := s.index, pc := s.pc }) (s.putBytes_frame _ _)
  · exact fun h => exec_of_ownFault (if_pos h)

/-- Settles O30: in range the effect is one write of V0..Vx and the index advance, past 0xFFF it is the fault of R261's
table. -/
theorem loadFillsV0ToVx : Obligations.LoadFillsV0ToVx := by
  intro x s
  constructor
  · intro h
    refine ⟨_, exec_ldIMem_of_le h, fun j hj => ?_, fun j hj => ?_, fun ha => ?_, fun ha => ?_, ?_, fun a => ?_, ?_⟩
    · rw [State.advance_reg, State.advanceIndex_reg]
      exact State.reg_load_of_le hj
    · rw [State.advance_reg, State.advanceIndex_reg]
      exact State.reg_load_of_lt hj
    · rw [State.advance_index, State.advanceIndex_index_of_none (by simpa using ha), State.setRegsFrom_index]
    · rw [State.advance_index, State.advanceIndex_index_toNat (by simpa using ha) (by simp; omega),
        State.setRegsFrom_index, Nat.add_assoc]
    · simp
    · simp
    · obtain ⟨w, hw⟩ := (s.setRegsFrom 0 (s.loadBytes x)).advanceIndex_eq_setIndex (x.toNat + 1)
      rw [hw]
      exact congrArg (fun t : State => { t with index := s.index, pc := s.pc }) (s.setRegsFrom_frame _ _)
  · exact fun h => exec_of_ownFault (if_pos h)

/-- Settles O31: the load reads the bytes the dump left. -/
theorem loadUndoesDump : Obligations.LoadUndoesDump := by
  intro x s hm h
  obtain ⟨t, ht, hstored, -⟩ := (dumpStoresV0ToVx x s hm).1 h
  refine ⟨t, ht, fun u hi hmem => ?_⟩
  obtain ⟨r, hr, hloaded, -⟩ := (loadFillsV0ToVx x u).1 (hi ▸ h)
  refine ⟨r, hr, fun j hj => ?_⟩
  rw [hloaded j hj, hi, hmem, hstored j hj]

/-- Settles O32: the fetch reads two neighbouring bytes that the dump left. -/
theorem fetchSeesAStoreAtOnce : Obligations.FetchSeesAStoreAtOnce := by
  intro x k s hm h hk
  obtain ⟨t, ht, hstored, -⟩ := (dumpStoresV0ToVx x s hm).1 h
  refine ⟨t, ht, fun u hmem hpc => ?_⟩
  have hx := x.isLt
  have hk1 : (k + 1).toNat = k.toNat + 1 := by
    rw [BitVec.toNat_add]
    exact Nat.mod_eq_of_lt (show k.toNat + 1 < 16 by omega)
  have hlo : u.byteAt (u.pc.toNat + 1) = s.reg (k + 1) := by
    rw [hpc, Nat.add_assoc, ← hk1, hmem, hstored (k + 1) (by omega)]
  have hhi : u.byteAt u.pc.toNat = s.reg k := by rw [hpc, hmem, hstored k (by omega)]
  exact u.fetch_some_iff.2 ⟨by omega, by rw [hhi, hlo]; rfl⟩

/-- Settles O34: in range the effect inverts the covered pixels and writes VF, past 0xFFF it is the fault of R261's
table. -/
theorem drawInvertsExactlyTheCoveredPixels : Obligations.DrawInvertsExactlyTheCoveredPixels := by
  intro x y n s
  constructor
  · intro h
    exact ⟨_, exec_drw_of_le h, fun _ _ => drawn_pixel_of_covers, fun _ _ => drawn_pixel_of_not_covers, rfl,
      fun j hj => State.reg_setReg_ne _ _ hj, rfl, fun _ => rfl, rfl⟩
  · exact fun h => exec_of_ownFault (if_pos h)

/-- Settles O35: the flag of the draw loop is the collision. -/
theorem drawFlagIsTheCollision : Obligations.DrawFlagIsTheCollision := by
  intro x y n s h
  have vf (t : State) (b : Byte) : (t.setReg 0xF#4 b).reg 0xF#4 = b := (t.reg_setReg _ _ b).trans (if_pos rfl)
  exact ⟨_, exec_drw_of_le h, fun hc => (vf _ _).trans (flag_of_collision hc),
    fun hc => (vf _ _).trans (flag_of_no_collision hc)⟩

/-- Settles O36: both draws cover the same pixels, so each is inverted twice; before the second draw a covered pixel is
set where it was clear before the first. -/
theorem drawingTwiceRestoresTheDisplay : Obligations.DrawingTwiceRestoresTheDisplay := by
  intro x y n s h
  obtain ⟨t, ht, hcov, hnot, -⟩ := (drawInvertsExactlyTheCoveredPixels x y n s).1 h
  refine ⟨t, ht, fun u hd hi hx hy hm => ?_⟩
  have same (px : Fin 64) (py : Fin 32) := spriteCovers_congr (n := n) hi hx hy hm px py
  have hu : n.toNat = 0 ∨ u.index.toNat + n.toNat - 1 ≤ 0xFFF := hi ▸ h
  obtain ⟨r, hr, hcov', hnot', -⟩ := (drawInvertsExactlyTheCoveredPixels x y n u).1 hu
  obtain ⟨r', hr', hone, hzero⟩ := drawFlagIsTheCollision x y n u hu
  obtain rfl : r = r' := Host.Outcome.next.inj (hr.symm.trans hr')
  refine ⟨r, hr, Display.ext fun px py => ?_, ?_, fun hall => ?_⟩
  · by_cases hc : SpriteCovers s x y n px py
    · rw [hcov' px py ((same px py).2 hc), hd, hcov px py hc, Bool.not_not]
    · rw [hnot' px py (mt (same px py).1 hc), hd, hnot px py hc]
  · rintro ⟨px, py, hc, hclear⟩
    exact hone ⟨px, py, (same px py).2 hc, by rw [hd, hcov px py hc, hclear]; rfl⟩
  · refine hzero fun px py hc => ?_
    have hc := (same px py).1 hc
    rw [hd, hcov px py hc, hall px py hc]; rfl

/-- Settles O37: where the key index exists both are skips, and where the policy rejects it both take the fault of
R261's table. -/
theorem keySkipsFollowTheKey : Obligations.KeySkipsFollowTheKey := by
  intro x k s
  constructor
  · intro h
    have hk := keyIdx_eq_some h
    constructor
    · exact exec_skip_spec (exec_skp_of_keyIdx hk) id id
    · exact exec_skip_spec (exec_sknp_of_keyIdx hk) (congrArg not) (congrArg not)
  · intro h
    exact ⟨exec_of_ownFault (if_pos h), exec_of_ownFault (if_pos h)⟩

/-- Settles O40: the key wait cannot fault, and its effect is one write of the engine state. -/
theorem keyWaitBlocks : Obligations.KeyWaitBlocks := by
  intro x s
  exact ⟨s.block x, exec_of_noFault rfl, rfl, rfl, State.block_byteAt s x, rfl⟩
end

section
/-! Canonical memories (spec/20_memory.md R50): one that lists an address reads there otherwise than one that starts
above it, so canonical memories that read the same are the same list. -/

namespace Sys2Proof.Machine

variable {d : Nat → Byte}

theorem Memory.wfFrom_succ_of_lt {lo k k' : Nat} {b' : Byte} {m' : Memory}
    (h : Memory.wfFrom d lo ((k', b') :: m') = true) (hk : k < k') : Memory.wfFrom d (k + 1) ((k', b') :: m') = true :=
  (Memory.wfFrom_cons d).2 ⟨hk, ((Memory.wfFrom_cons d).1 h).2⟩

/-- The first address listed reads otherwise in a memory that starts above it. -/
theorem Memory.read_head_ne {lo k : Nat} {b : Byte} {m m' : Memory} (h : Memory.wfFrom d lo ((k, b) :: m) = true)
    (h' : Memory.wfFrom d (k + 1) m' = true) : Memory.read d ((k, b) :: m) k ≠ Memory.read d m' k := by
  obtain ⟨-, -, hb, -⟩ := (Memory.wfFrom_cons d).1 h
  rwa [Memory.read_head, Memory.read_below d h' (Nat.lt_succ_self k)]

theorem Memory.eq_of_read_eq {lo : Nat} {m m' : Memory} (h : Memory.wfFrom d lo m = true)
    (h' : Memory.wfFrom d lo m' = true) (hr : ∀ a, Memory.read d m a = Memory.read d m' a) : m = m' := by
  induction m generalizing lo m' with
  | nil =>
    cases m' with
    | nil => rfl
    | cons c m' => exact absurd (hr c.1).symm (Memory.read_head_ne h' rfl)
  | cons c m ih =>
    obtain ⟨k, b⟩ := c
    cases m' with
    | nil => exact absurd (hr k) (Memory.read_head_ne h rfl)
    | cons c' m' =>
      obtain ⟨k', b'⟩ := c'
      obtain hk | rfl | hk := lt_trichotomy k k'
      · exact absurd (hr k) (Memory.read_head_ne h (Memory.wfFrom_succ_of_lt h' hk))
      · have hb : b = b' := by simpa [Memory.read] using hr k
        obtain ⟨-, -, -, ht⟩ := (Memory.wfFrom_cons d).1 h
        obtain ⟨-, -, -, ht'⟩ := (Memory.wfFrom_cons d).1 h'
        rw [hb, ih ht ht' fun a => by rw [Memory.read_tail d h, Memory.read_tail d h', hr a]]
      · exact absurd (hr k').symm (Memory.read_head_ne h' (Memory.wfFrom_succ_of_lt h hk))

end Sys2Proof.Machine
end

section
open Sys2Proof Sys2Proof.Machine

/-- Settles O51, by induction on both lists: the heads agree, or the lower one is seen by a read. -/
theorem canonicalMemoriesAreEqualIffTheyReadTheSame : Obligations.CanonicalMemoriesAreEqualIffTheyReadTheSame := by
  intro p m m' h h'
  exact ⟨Memory.eq_of_read_eq h h', fun e _ => e ▸ rfl⟩
end

section
/-! Noninterference (spec/10_state.md R23): two states that differ in one register at most stay so under every
operation, and under an effect that does not read that register. -/

namespace Sys2Proof.Machine

variable {s t u : State} {i : Instr} {j : Nibble} {b : Byte}

/-- `u` is `t`, or `t` with `b` in the register `j`. -/
def SameButReg (j : Nibble) (b : Byte) (t u : State) : Prop := u = t ∨ u = t.setReg j b

/-- An operation that leaves the registers alone. -/
theorem SameButReg.map {f : State → State} (h : SameButReg j b t u) (hf : f (t.setReg j b) = (f t).setReg j b) :
    SameButReg j b (f t) (f u) := by
  obtain rfl | rfl := h
  · exact .inl rfl
  · exact .inr hf

/-- A register write hides the difference or leaves it. -/
theorem SameButReg.setReg (h : SameButReg j b t u) (x : Nibble) (v : Byte) :
    SameButReg j b (t.setReg x v) (u.setReg x v) := by
  obtain rfl | rfl := h
  · exact .inl rfl
  · by_cases hx : j = x
    · subst hx; exact .inl (t.setReg_setReg_same j b v)
    · exact .inr (t.setReg_comm b v hx)

theorem SameButReg.advance (h : SameButReg j b t u) : SameButReg j b t.advance u.advance := h.map rfl

theorem SameButReg.setRegsFrom (h : SameButReg j b t u) (k : Nat) (bs : List Byte) :
    SameButReg j b (t.setRegsFrom k bs) (u.setRegsFrom k bs) := by
  induction bs generalizing t u k with
  | nil => exact h
  | cons v bs ih => exact ih (h.setReg _ v) (k + 1)

theorem State.putBytes_setReg (s : State) (j : Nibble) (b : Byte) (a : Nat) (bs : List Byte) :
    (s.setReg j b).putBytes a bs = (s.putBytes a bs).setReg j b := by
  induction bs generalizing s a with
  | nil => rfl
  | cons v bs ih => exact ih (s.putByte a v) (a + 1)

theorem SameButReg.putBytes (h : SameButReg j b t u) (a : Nat) (bs : List Byte) :
    SameButReg j b (t.putBytes a bs) (u.putBytes a bs) :=
  h.map (f := fun t => t.putBytes a bs) (t.putBytes_setReg j b a bs)

theorem State.advanceIndex_setReg (s : State) (j : Nibble) (b : Byte) (n : Nat) :
    (s.setReg j b).advanceIndex n = (s.advanceIndex n).setReg j b := by
  simp only [State.advanceIndex, State.setReg_params]
  cases s.params.indexAdvance <;> rfl

theorem SameButReg.advanceIndex (h : SameButReg j b t u) (n : Nat) :
    SameButReg j b (t.advanceIndex n) (u.advanceIndex n) :=
  h.map (f := fun t => t.advanceIndex n) (t.advanceIndex_setReg j b n)

theorem SameButReg.params (h : SameButReg j b t u) : u.params = t.params := by
  obtain rfl | rfl := h <;> rfl

theorem SameButReg.commit (h : SameButReg j b t u) (x : Nibble) (r : Byte × Bool) :
    SameButReg j b (t.commit x r) (u.commit x r) := by
  simp only [State.commit, h.params]
  cases t.params.flagOrder
  · exact (h.setReg _ _).setReg _ _
  · exact (h.setReg _ _).setReg _ _

theorem State.regsUpTo_setReg {x : Nibble} (h : x.toNat < j.toNat) : (s.setReg j b).regsUpTo x = s.regsUpTo x := by
  refine List.map_congr_left fun k hk => State.reg_setReg_ne s b fun e => ?_
  have := congrArg BitVec.toNat e
  rw [BitVec.toNat_ofNat] at this
  have := List.mem_range.1 hk
  have := Nat.mod_le k (2 ^ 4)
  omega

/-- Whether an instruction faults depends on the registers it reads only. -/
theorem ownFault_setReg (h : readsReg j i = false) : ownFault (s.setReg j b) i = ownFault s i := by
  cases i
  case skp | sknp =>
    rw [readsReg, beq_eq_false_iff_ne] at h
    rw [ownFault, State.reg_setReg_ne s b h.symm]; rfl
  all_goals rfl

/-- So does what it does where it does not fault. -/
theorem effect_setReg (h : readsReg j i = false) (ho : ownFault s i = none) :
    SameButReg j b (effect s i) (effect (s.setReg j b) i) := by
  have base : SameButReg j b s (s.setReg j b) := .inr rfl
  have same {x : Nibble} (hx : j ≠ x) : (s.setReg j b).reg x = s.reg x := State.reg_setReg_ne s b hx.symm
  cases i <;> simp only [readsReg, Bool.or_eq_false_iff, beq_eq_false_iff_ne, decide_eq_false_iff_not, not_le] at h
  case ret =>
    have hsp := ret_sp_pos ho
    rw [effect_ret hsp, effect_ret (s := s.setReg j b) hsp]
    exact .inr rfl
  case call =>
    have hsp := call_sp_lt ho
    rw [effect_call hsp, effect_call (s := s.setReg j b) hsp]
    exact .inr rfl
  case seImm | sneImm | jpV0 | ldDtVx | ldStVx | addI | ldF =>
    rw [effect, effect, same h]
    exact .inr rfl
  case seReg | sneReg =>
    rw [effect, effect, same h.1, same h.2]
    exact .inr rfl
  case skp =>
    obtain ⟨k, hk⟩ := keyIdx_some_of_ownFault ho
    rw [effect_skp_of_keyIdx hk, effect_skp_of_keyIdx (s := s.setReg j b) (by rw [same h]; exact hk)]
    exact .inr rfl
  case sknp =>
    obtain ⟨k, hk⟩ := keyIdx_some_of_ownFault ho
    rw [effect_sknp_of_keyIdx hk, effect_sknp_of_keyIdx (s := s.setReg j b) (by rw [same h]; exact hk)]
    exact .inr rfl
  case ldImm | ldVxDt => exact (base.setReg _ _).advance
  case addImm | ldReg =>
    rw [effect, effect, same h]
    exact (base.setReg _ _).advance
  case or | and | xor =>
    rw [effect, effect, same h.1, same h.2]
    exact (base.setReg _ _).advance
  case addReg | sub | subn =>
    rw [effect, effect, same h.1, same h.2]
    exact (base.commit _ _).advance
  case shr | shl =>
    rw [effect, effect, same h]
    exact (base.commit _ _).advance
  case rnd => exact ((base.map (f := State.takeDraw) rfl).setReg _ _).advance
  case drw =>
    rw [effect, effect, same h.1, same h.2]
    exact ((base.map (f := fun t => t.show _) rfl).setReg _ _).advance
  case ldB =>
    rw [effect, effect, same h]
    exact (base.putBytes _ _).advance
  case ldMemI =>
    rw [effect, effect, State.regsUpTo_setReg h]
    exact ((base.putBytes _ _).advanceIndex _).advance
  case ldIMem => exact ((base.setRegsFrom _ _).advanceIndex _).advance
  case cls | jp | ldI | ldVxK => exact .inr rfl

end Sys2Proof.Machine
end

section
open Sys2Proof Sys2Proof.Machine

/-- Settles O54: a register that is not read changes neither the fault nor, but for its own value, the effect. -/
theorem unlistedRegistersAreNotRead : Obligations.UnlistedRegistersAreNotRead := by
  intro i s j b h
  have ho' : ownFault (s.setReg j b) i = ownFault s i := ownFault_setReg h
  cases ho : ownFault s i with
  | some c => exact ⟨_, _, exec_of_ownFault ho, exec_of_ownFault (ho'.trans ho), .inr rfl⟩
  | none => exact ⟨_, _, exec_of_noFault ho, exec_of_noFault (ho'.trans ho), effect_setReg h ho⟩
end
